-- ==== Sys2Proof/Word.lean ====
section
/-! DEFINITION. The words of the block: unsigned integers whose bits are numbered from 0, the least significant
(00_scope.md R11, R12). -/

namespace Sys2Proof

/-- A bus sample, a decoded word, or any other value of the block: an unsigned integer (R12).
Its width is a parameter (R6), so it is a natural number and `trunc` states where a width is imposed. -/
abbrev Word := Nat

/-- The low `n` bits of `v`: what a register or a group of wires `n` bits wide holds (R12, R6). -/
def trunc (n : Nat) (v : Word) : Word := v % 2 ^ n

end Sys2Proof
end

