-- ==== Sys2Proof/Config.lean ====
section
/-! DEFINITION. What is fixed while a unit runs: the implementation parameters (00_scope.md R6), the configuration
records of the units (10_state.md R24, R25, R26), and the connections between units (40_bus_and_tick.md R118). -/

namespace Sys2Proof

/-- The three units of the block (00_scope.md R1). -/
inductive UnitId where
  | edge
  | uart
  | spi
deriving DecidableEq, Repr

/-- The implementation parameters the spec leaves open (R6, D4). -/
structure Params where
  /-- `W`: width of a bus word, which is the number of channels. -/
  w : Nat
  /-- `WORD_W`: width of the UART and SPI shift registers and of their output word. -/
  wordW : Nat
  /-- `PER_W`: width of the UART `period` field. -/
  perW : Nat
  /-- `TO_W`: width of the SPI `frame_timeout` field. -/
  toW : Nat
deriving DecidableEq, Repr

/-- The UART configuration record (10_state.md R24). -/
structure UartCfg where
  /-- Samples per bit. -/
  period : Nat
  /-- Data bits per frame. -/
  nbBits : Nat
  /-- Which bit of the sample to decode. -/
  channel : Nat
deriving DecidableEq, Repr

/-- The SPI configuration record (10_state.md R25). The five fields the spec makes one bit wide are `Bool`:
`true` is 1, `false` is 0 (log 17). -/
structure SpiCfg where
  clockChannel : Nat
  dataChannel : Nat
  frameChannel : Nat
  /-- The level that constitutes the sampling edge. -/
  clockEdge : Bool
  /-- Idle level of the clock. -/
  clockPolarity : Bool
  /-- Asserted level of the chip-select. -/
  frameActive : Bool
  /-- Reload value of the timeout countdown; 0 disables. -/
  frameTimeout : Nat
  /-- Bits per emitted word. -/
  nbBits : Nat
  /-- Whether chip-select gating applies. -/
  frameEnable : Bool
  timeoutEnable : Bool
deriving DecidableEq, Repr

/-- `phase = clock_edge XOR clock_polarity` (10_state.md R27): no rule reads it. -/
def SpiCfg.phase (c : SpiCfg) : Bool := xor c.clockEdge c.clockPolarity

/-- The operand of `RESET(cfg)`: the configuration record of one unit (40_bus_and_tick.md R114). EDGE has none (R26). -/
inductive UnitCfg where
  | edge
  | uart (c : UartCfg)
  | spi (c : SpiCfg)
deriving DecidableEq, Repr

/-- The unit a configuration record belongs to. -/
def UnitCfg.unit : UnitCfg → UnitId
  | .edge => .edge
  | .uart _ => .uart
  | .spi _ => .spi

/-- Where a unit's samples come from: the host, or the output stream of another unit (40_bus_and_tick.md R118). -/
inductive Source where
  | host
  | unit (u : UnitId)
deriving DecidableEq, Repr

/-- The connections of the block: each unit's source (R118, 70_reset_and_hazards.md R233). -/
structure Wiring where
  edge : Source
  uart : Source
  spi : Source
deriving DecidableEq, Repr

def Wiring.source (w : Wiring) : UnitId → Source
  | .edge => w.edge
  | .uart => w.uart
  | .spi => w.spi

/-- No chain: every unit is fed by the host. -/
def Wiring.unchained : Wiring := ⟨.host, .host, .host⟩

/-- DESIGN CHOICE (log 5, unsafe): the parameters `State.reset` carries, those of the spec's derived vectors
(95_test_vectors.md section 2). No rule depends on them. -/
def Params.vectors : Params := ⟨8, 16, 16, 16⟩

/-- DESIGN CHOICE (log 6, unsafe): the UART record `State.reset` carries, the one R95 writes as its example. -/
def UartCfg.example95 : UartCfg := ⟨4, 8, 1⟩

/-- DESIGN CHOICE (log 6, unsafe): the SPI record `State.reset` carries, the one R95 writes as its example. -/
def SpiCfg.example95 : SpiCfg := ⟨0, 1, 2, true, false, false, 0, 8, false, false⟩

end Sys2Proof
end

