-- ==== Sys2Proof/Syntax.lean ====
section
/-! DEFINITION. The operations of the block: one constructor for each row of spec/opcode_table.json (30_encoding.md
R80, R88, R89, R90, R100). An operand is what the operation's rule reads besides the unit's own registers and
configuration: RESET's record, and the sample of the tick. -/

namespace Sys2Proof

/-- An operation. The first three are the port operations of a unit (format PORT, R100); the others are the cases of a
tick (formats FE, FU, FS), of which TICK runs the ones its selector word selects. -/
inductive Instr where
  /-- RESET (R114): construct the unit from the record. -/
  | reset (c : UnitCfg)
  /-- TICK (R113): advance the unit by one sample. -/
  | tick (u : UnitId) (x : Word)
  /-- IDLECYCLE (R115): a clock cycle of the unit with rst = 0 and tick_en = 0. -/
  | idleCycle (u : UnitId)
  /-- E.HOLD (R131), with the sample. -/
  | eHold (x : Word)
  /-- E.EMIT (R132), with the sample. -/
  | eEmit (x : Word)
  /-- U.SKIP (R144). -/
  | uSkip
  /-- U.IDLE (R145). -/
  | uIdle
  /-- U.START (R146). -/
  | uStart
  /-- U.DATA (R147), with the sample. -/
  | uData (x : Word)
  /-- U.STOP (R148). -/
  | uStop
  /-- U.BREAK (R149). -/
  | uBreak
  /-- U.FERR (R150). -/
  | uFerr
  /-- U.BWAIT (R151). -/
  | uBwait
  /-- U.BREC (R152). -/
  | uBrec
  /-- U.FWAIT (R153). -/
  | uFwait
  /-- U.FREC (R154). -/
  | uFrec
  /-- S.FSTART (R172), phase 1. -/
  | sFstart
  /-- S.TCOUNT (R173), phase 2. -/
  | sTcount
  /-- S.TFIRE (R174), phase 2. -/
  | sTfire
  /-- S.SHIFT (R175), phase 3, with the sample. -/
  | sShift (x : Word)
  /-- S.EMIT (R176), phase 3, with the sample. -/
  | sEmit (x : Word)
  /-- S.LATCH (R177), phase 4, with the sample. -/
  | sLatch (x : Word)
deriving DecidableEq, Repr

end Sys2Proof
end

