-- ==== Sys2Proof/WellFormed.lean ====
section
/-! DEFINITION. Well-formed parameters, configuration records, connections and operations (00_scope.md R6, R8;
40_bus_and_tick.md R118). The illegal encodings of the block are illegal configuration records (30_encoding.md R93). -/

namespace Sys2Proof

/-- R6: `W >= 1` and `WORD_W >= 1`. -/
def Params.ok (p : Params) : Bool := decide (1 ≤ p.w) && decide (1 ≤ p.wordW)

/-- R8, the UART rows. -/
def UartCfg.legal (p : Params) (c : UartCfg) : Bool :=
  decide (1 ≤ c.period) && decide (c.channel < p.w) && decide (c.nbBits ≤ p.wordW)

/-- R6: `period < 2^PER_W`, the width of its field. -/
def UartCfg.fits (p : Params) (c : UartCfg) : Bool := decide (c.period < 2 ^ p.perW)

/-- R8, the SPI rows. The last of them, that five fields are 0 or 1, holds by their type. -/
def SpiCfg.legal (p : Params) (c : SpiCfg) : Bool :=
  decide (c.clockChannel < p.w) && decide (c.dataChannel < p.w) && decide (c.frameChannel < p.w) &&
    decide (1 ≤ c.nbBits) && decide (c.nbBits ≤ p.wordW)

/-- R6: `frame_timeout < 2^TO_W`, the width of its field. -/
def SpiCfg.fits (p : Params) (c : SpiCfg) : Bool := decide (c.frameTimeout < 2 ^ p.toW)

/-- R8 for any unit. EDGE has no condition. -/
def UnitCfg.legal (p : Params) : UnitCfg → Bool
  | .edge => true
  | .uart c => c.legal p
  | .spi c => c.legal p

/-- The field widths of R6 for any unit. -/
def UnitCfg.fits (p : Params) : UnitCfg → Bool
  | .edge => true
  | .uart c => c.fits p
  | .spi c => c.fits p

/-- R61, R113: a sample is a `W`-bit word. -/
def sampleOk (p : Params) (x : Word) : Bool := decide (x < 2 ^ p.w)

/-- An operation is well formed when its configuration record is legal and its sample is a `W`-bit word. -/
def Instr.wellFormed (p : Params) : Instr → Bool
  | .reset c => c.legal p && c.fits p
  | .tick _ x => sampleOk p x
  | .idleCycle _ => true
  | .eHold x => sampleOk p x
  | .eEmit x => sampleOk p x
  | .uSkip => true
  | .uIdle => true
  | .uStart => true
  | .uData x => sampleOk p x
  | .uStop => true
  | .uBreak => true
  | .uFerr => true
  | .uBwait => true
  | .uBrec => true
  | .uFwait => true
  | .uFrec => true
  | .sFstart => true
  | .sTcount => true
  | .sTfire => true
  | .sShift x => sampleOk p x
  | .sEmit x => sampleOk p x
  | .sLatch x => sampleOk p x

/-- Each unit that `order` lists is fed by the host or by a unit in `before` or earlier in the list. -/
def Wiring.respects (w : Wiring) : List UnitId → List UnitId → Bool
  | _, [] => true
  | before, u :: us =>
    (match w.source u with
      | .host => true
      | .unit v => before.contains v) && w.respects (u :: before) us

/-- The six orders of the three units. -/
def unitOrders : List (List UnitId) :=
  [[.edge, .uart, .spi], [.edge, .spi, .uart], [.uart, .edge, .spi], [.uart, .spi, .edge],
   [.spi, .edge, .uart], [.spi, .uart, .edge]]

/-- D24: chained units have the same `W`. EDGE passes samples on; UART and SPI words are `WORD_W` bits wide. -/
def Wiring.widthsAgree (p : Params) (w : Wiring) : Bool :=
  [UnitId.edge, .uart, .spi].all fun u =>
    match w.source u with
    | .host => true
    | .unit .edge => true
    | .unit _ => decide (p.wordW = p.w)

/-- The connections form chains (no unit feeds itself, directly or around a ring) of equal width (R118, D24; log 13). -/
def Wiring.legal (p : Params) (w : Wiring) : Bool :=
  unitOrders.any (w.respects []) && w.widthsAgree p

end Sys2Proof
end

