-- ==== Sys2Proof/Decode.lean ====
section
/-! DEFINITION. The opcode maps (30_encoding.md R80 to R100): the decoder of each format, the decoder of a whole
instruction word, and the encoder written from the same tables.

The selector words of FE, FU and FS are computed, not stored (R84): `Machine/Flags.lean` computes them and a TICK decodes
them here. The PORT word is formed from the pins (R115) and decoded here too. -/

namespace Sys2Proof

/-! ## The four formats -/

/-- The operation classes of a clock cycle (R100). -/
inductive PortOp where
  | reset
  | tick
  | idle
deriving DecidableEq, Repr

/-- The EDGE operations (R88). -/
inductive EdgeOp where
  | hold
  | emit
deriving DecidableEq, Repr

/-- The UART operations (R89). -/
inductive UartOp where
  | skip
  | idle
  | start
  | data
  | stop
  | brk
  | ferr
  | bwait
  | brec
  | fwait
  | frec
deriving DecidableEq, Repr

/-- The SPI operations (R90). -/
inductive SpiOp where
  | fstart
  | tcount
  | tfire
  | shift
  | emit
  | latch
deriving DecidableEq, Repr

/-- The four phases of an SPI tick (R90, 43_spi_framer.md R170). -/
inductive Phase where
  | one
  | two
  | three
  | four
deriving DecidableEq, Repr

/-- Format PORT, `rst` at bit 1 and `tick_en` at bit 0: `1x` RESET, `01` TICK, `00` nothing (R100). -/
def decodePORT (w : BitVec 2) : PortOp :=
  if w.getLsbD 1 then .reset else if w.getLsbD 0 then .tick else .idle

/-- Format FE, pattern `d` (R88). -/
def decodeFE (w : BitVec 1) : EdgeOp := if w.getLsbD 0 then .emit else .hold

/-- Format FU, pattern `s mm i c z` (R89): `s` at bit 5, `m` at bits 4:3, `i` at bit 2, `c` at bit 1, `z` at bit 0.
Total, as R91 says. -/
def decodeFU (w : BitVec 6) : UartOp :=
  if w.getLsbD 5 then .skip
  else
    match w.getLsbD 4, w.getLsbD 3 with
    | false, false => if w.getLsbD 2 then .idle else .start
    | false, true =>
      if w.getLsbD 1 then .data
      else if w.getLsbD 2 then .stop
      else if w.getLsbD 0 then .brk else .ferr
    | true, false => if w.getLsbD 2 then .brec else .bwait
    | true, true => if w.getLsbD 2 then .frec else .fwait

/-- Format FS, pattern `a t z g e f` from bit 5 down, matched in one phase (R90); `none` where the phase does nothing. -/
def decodeFS (ph : Phase) (w : BitVec 6) : Option SpiOp :=
  match ph with
  | .one => if w.getLsbD 5 then some .fstart else none
  | .two => if w.getLsbD 4 then (if w.getLsbD 3 then some .tfire else some .tcount) else none
  | .three =>
    if w.getLsbD 2 && w.getLsbD 1 then (if w.getLsbD 0 then some .emit else some .shift) else none
  | .four => some .latch

/-- The operation with the tick's sample as its operand, where it reads one (41_edge_filter.md R130). -/
def EdgeOp.instr (x : Word) : EdgeOp → Instr
  | .hold => .eHold x
  | .emit => .eEmit x

/-- The operation; U.DATA alone reads the tick's sample (10_state.md R24). -/
def UartOp.instr (x : Word) : UartOp → Instr
  | .skip => .uSkip
  | .idle => .uIdle
  | .start => .uStart
  | .data => .uData x
  | .stop => .uStop
  | .brk => .uBreak
  | .ferr => .uFerr
  | .bwait => .uBwait
  | .brec => .uBrec
  | .fwait => .uFwait
  | .frec => .uFrec

/-- The operation; S.SHIFT, S.EMIT and S.LATCH read the tick's sample (43_spi_framer.md R175 to R177). -/
def SpiOp.instr (x : Word) : SpiOp → Instr
  | .fstart => .sFstart
  | .tcount => .sTcount
  | .tfire => .sTfire
  | .shift => .sShift x
  | .emit => .sEmit x
  | .latch => .sLatch x

/-! ## Packed configuration records (R83, R99) -/

/-- `CNT_W`: the fewest bits that hold every value `0..WORD_W` (00_scope.md R6; log 14). -/
def Params.cntW (p : Params) : Nat := Nat.log2 p.wordW + 1

/-- `CH_W`: the fewest bits, and at least one, that hold every value `0..W-1` (00_scope.md R6; log 14). -/
def Params.chW (p : Params) : Nat := Nat.log2 (p.w - 1) + 1

/-- `SKIP_W = PER_W + 1` (00_scope.md R6). -/
def Params.skipW (p : Params) : Nat := p.perW + 1

/-- Put the `n`-bit field `v` below the fields `rest`. -/
def packField (n v rest : Nat) : Nat := v + 2 ^ n * rest

/-- The lowest `n`-bit field of `v`. -/
def lowField (n v : Nat) : Nat := v % 2 ^ n

/-- `v` with its lowest `n`-bit field taken away. -/
def restFields (n v : Nat) : Nat := v / 2 ^ n

/-- R83: `period`, `nb_bits`, `channel`, lowest bits first. -/
def UartCfg.pack (p : Params) (c : UartCfg) : Nat :=
  packField p.perW c.period (packField p.cntW c.nbBits c.channel)

/-- The record whose R83 layout is `v`. -/
def UartCfg.unpack (p : Params) (v : Nat) : UartCfg :=
  let v1 := restFields p.perW v
  ⟨lowField p.perW v, lowField p.cntW v1, restFields p.cntW v1⟩

/-- The number of bits of the R83 layout. -/
def UartCfg.packedBits (p : Params) : Nat := p.perW + p.cntW + p.chW

/-- R99: the ten fields in the order of logan §6, lowest bits first. -/
def SpiCfg.pack (p : Params) (c : SpiCfg) : Nat :=
  packField p.chW c.clockChannel <| packField p.chW c.dataChannel <| packField p.chW c.frameChannel <|
  packField 1 c.clockEdge.toNat <| packField 1 c.clockPolarity.toNat <| packField 1 c.frameActive.toNat <|
  packField p.toW c.frameTimeout <| packField p.cntW c.nbBits <|
  packField 1 c.frameEnable.toNat c.timeoutEnable.toNat

/-- The record whose R99 layout is `v`. -/
def SpiCfg.unpack (p : Params) (v : Nat) : SpiCfg :=
  let v1 := restFields p.chW v
  let v2 := restFields p.chW v1
  let v3 := restFields p.chW v2
  let v4 := restFields 1 v3
  let v5 := restFields 1 v4
  let v6 := restFields 1 v5
  let v7 := restFields p.toW v6
  let v8 := restFields p.cntW v7
  let v9 := restFields 1 v8
  { clockChannel := lowField p.chW v, dataChannel := lowField p.chW v1, frameChannel := lowField p.chW v2,
    clockEdge := lowField 1 v3 == 1, clockPolarity := lowField 1 v4 == 1, frameActive := lowField 1 v5 == 1,
    frameTimeout := lowField p.toW v6, nbBits := lowField p.cntW v7,
    frameEnable := lowField 1 v8 == 1, timeoutEnable := lowField 1 v9 == 1 }

/-- The number of bits of the R99 layout. -/
def SpiCfg.packedBits (p : Params) : Nat := 3 * p.chW + 3 + p.toW + p.cntW + 2

/-! ## Whole instruction words

DESIGN CHOICE (log 15): the low byte of an instruction word is its PORT or selector word, as opcode_table.json numbers it;
the operand stands above it, from bit 8 on. A word does not name its format (R80), so the decoder is told where the word
was read. -/

/-- Where a word is read: the port of a unit, the selector of EDGE or UART, or one phase of the SPI selector. -/
inductive Place where
  | port (u : UnitId)
  | fe
  | fu
  | fs (ph : Phase)
deriving DecidableEq, Repr

/-- Why a word is no instruction. -/
inductive DecodeError where
  /-- A bit of the low byte above the format's width is set. -/
  | strayBits
  /-- The operand has more bits than its sample or configuration record. -/
  | operandTooWide
  /-- The operation has no operand and the bits above the low byte are not 0. -/
  | strayOperand
  /-- No operation of this SPI phase matches the word: the phase does nothing (R90). -/
  | phaseDoesNothing
deriving DecidableEq, Repr

/-- The operation with its operand checked: a `W`-bit sample where it reads one, else 0. -/
def withOperand (p : Params) (takesSample : Bool) (arg : Nat) (i : Instr) : Except DecodeError Instr :=
  if takesSample then (if sampleOk p arg then .ok i else .error .operandTooWide)
  else if arg = 0 then .ok i else .error .strayOperand

/-- RESET of a unit with the packed record `arg`. -/
def decodeReset (p : Params) (u : UnitId) (arg : Nat) : Except DecodeError Instr :=
  match u with
  | .edge => withOperand p false arg (.reset .edge)
  | .uart =>
    if arg < 2 ^ UartCfg.packedBits p then .ok (.reset (.uart (UartCfg.unpack p arg))) else .error .operandTooWide
  | .spi =>
    if arg < 2 ^ SpiCfg.packedBits p then .ok (.reset (.spi (SpiCfg.unpack p arg))) else .error .operandTooWide

/-- Decode an instruction word read at a place. Total: any number is an instruction or is rejected by name. -/
def decode (p : Params) (pl : Place) (n : Nat) : Except DecodeError Instr :=
  let op := n % 256
  let arg := n / 256
  match pl with
  | .port u =>
    if op < 4 then
      match decodePORT (BitVec.ofNat 2 op) with
      | .reset => decodeReset p u arg
      | .tick => withOperand p true arg (.tick u arg)
      | .idle => withOperand p false arg (.idleCycle u)
    else .error .strayBits
  | .fe => if op < 2 then withOperand p true arg ((decodeFE (BitVec.ofNat 1 op)).instr arg) else .error .strayBits
  | .fu =>
    if op < 64 then
      let o := decodeFU (BitVec.ofNat 6 op)
      withOperand p (o == .data) arg (o.instr arg)
    else .error .strayBits
  | .fs ph =>
    if op < 64 then
      match decodeFS ph (BitVec.ofNat 6 op) with
      | some o => withOperand p (o == .shift || o == .emit || o == .latch) arg (o.instr arg)
      | none => .error .phaseDoesNothing
    else .error .strayBits

/-! ## The encoder -/

/-- The place an operation's word is read at. -/
def Instr.place : Instr → Place
  | .reset c => .port c.unit
  | .tick u _ => .port u
  | .idleCycle u => .port u
  | .eHold _ => .fe
  | .eEmit _ => .fe
  | .uSkip => .fu
  | .uIdle => .fu
  | .uStart => .fu
  | .uData _ => .fu
  | .uStop => .fu
  | .uBreak => .fu
  | .uFerr => .fu
  | .uBwait => .fu
  | .uBrec => .fu
  | .uFwait => .fu
  | .uFrec => .fu
  | .sFstart => .fs .one
  | .sTcount => .fs .two
  | .sTfire => .fs .two
  | .sShift _ => .fs .three
  | .sEmit _ => .fs .three
  | .sLatch _ => .fs .four

/-- The row's pattern with 0 for each bit the operation does not look at (column "match" of opcode_table.json). -/
def Instr.matchWord : Instr → Nat
  | .reset _ => 0x02
  | .tick _ _ => 0x01
  | .idleCycle _ => 0x00
  | .eHold _ => 0x00
  | .eEmit _ => 0x01
  | .uSkip => 0x20
  | .uIdle => 0x04
  | .uStart => 0x00
  | .uData _ => 0x0A
  | .uStop => 0x0C
  | .uBreak => 0x09
  | .uFerr => 0x08
  | .uBwait => 0x10
  | .uBrec => 0x14
  | .uFwait => 0x18
  | .uFrec => 0x1C
  | .sFstart => 0x20
  | .sTcount => 0x10
  | .sTfire => 0x18
  | .sShift _ => 0x06
  | .sEmit _ => 0x07
  | .sLatch _ => 0x00

/-- The bits of the row's pattern the operation looks at (column "mask" of opcode_table.json). -/
def Instr.maskWord : Instr → Nat
  | .reset _ => 0x02
  | .tick _ _ => 0x03
  | .idleCycle _ => 0x03
  | .eHold _ => 0x01
  | .eEmit _ => 0x01
  | .uSkip => 0x20
  | .uIdle => 0x3C
  | .uStart => 0x3C
  | .uData _ => 0x3A
  | .uStop => 0x3E
  | .uBreak => 0x3F
  | .uFerr => 0x3F
  | .uBwait => 0x3C
  | .uBrec => 0x3C
  | .uFwait => 0x3C
  | .uFrec => 0x3C
  | .sFstart => 0x20
  | .sTcount => 0x18
  | .sTfire => 0x18
  | .sShift _ => 0x07
  | .sEmit _ => 0x07
  | .sLatch _ => 0x00

/-- The operand of an operation as a number: its packed record or its sample, 0 where it has none. -/
def Instr.operand (p : Params) : Instr → Nat
  | .reset .edge => 0
  | .reset (.uart c) => c.pack p
  | .reset (.spi c) => c.pack p
  | .tick _ x => x
  | .idleCycle _ => 0
  | .eHold x => x
  | .eEmit x => x
  | .uSkip => 0
  | .uIdle => 0
  | .uStart => 0
  | .uData x => x
  | .uStop => 0
  | .uBreak => 0
  | .uFerr => 0
  | .uBwait => 0
  | .uBrec => 0
  | .uFwait => 0
  | .uFrec => 0
  | .sFstart => 0
  | .sTcount => 0
  | .sTfire => 0
  | .sShift x => x
  | .sEmit x => x
  | .sLatch x => x

/-- The instruction word of a well-formed operation. -/
def encode (p : Params) (i : Instr) : Nat := i.matchWord + 256 * i.operand p

/-! ## A word of the table, for the host -/

/-- Where a bare word of opcode_table.json is taken to be read. The table's formats share one numbering and a word does not
name its format, so twelve of its rows share their word with another row. DESIGN CHOICE (log 15): a width of 1 is FE
and of 2 is PORT; at any other width (every row's, in whole bytes) the words 0x01 and 0x02 are those of TICK and RESET at
the port of EDGE, 0x06 and 0x07 those of S.SHIFT and S.EMIT in phase 3, and every other word is a UART selector. -/
def tablePlace (nbits w : Nat) : Place :=
  if nbits = 1 then .fe
  else if nbits = 2 then .port .edge
  else if w = 1 ∨ w = 2 then .port .edge
  else if w = 6 ∨ w = 7 then .fs .three
  else .fu

/-- The instruction this decoder reads from a word of opcode_table.json, operand bits 0. -/
def decodeTableWord (nbits w : Nat) : Option Instr :=
  (decode Params.vectors (tablePlace nbits w) w).toOption

end Sys2Proof
end

