-- ==== Sys2Proof/Machine/State.lean ====
section
/-! DEFINITION. The state of the block (10_state.md), the clock cycles the host supplies (40_bus_and_tick.md R115), the
reasons a step can stop, and the state after reset. -/

namespace Sys2Proof.Machine

/-- `UART.mode` (10_state.md R29). -/
inductive UMode where
  | idle
  | shift
  | brk
  | frameErr
deriving DecidableEq, Repr

/-- The two events of the UART (00_scope.md R13, 10_state.md R43). -/
inductive Event where
  | brk
  | frameErr
deriving DecidableEq, Repr

/-- The EDGE state record (10_state.md R23). -/
structure EdgeState where
  /-- The whole bus word of the previous tick. -/
  lastSample : Word
deriving DecidableEq, Repr

/-- The UART state record (10_state.md R28). -/
structure UartState where
  mode : UMode
  /-- The data shift register (R30). -/
  reg : Word
  /-- Data bits collected in the current frame (R31). -/
  bit : Nat
  /-- Following ticks the unit will ignore (R32). -/
  skip : Nat
deriving DecidableEq, Repr

/-- The SPI state record (10_state.md R36). -/
structure SpiState where
  /-- The shift register (R37). -/
  reg : Word
  /-- Bits shifted in since `reg` was last cleared (R38). -/
  count : Nat
  /-- The timeout countdown (R42). -/
  countdown : Nat
  /-- The clock bit of the previous tick (R39). -/
  lastClock : Bool
  /-- The frame bit of the previous tick (R40). -/
  lastFrame : Bool
deriving DecidableEq, Repr

/-- The input pins of one unit in one clock cycle (R115). `rst` is `some cfg` when rst = 1, with the value of the cfg
inputs, and `none` when rst = 0: between two resets the cfg inputs are steady, so they carry nothing new (R115, R232, R246;
log 12). -/
structure Pins (C : Type) where
  rst : Option C
  tickEn : Bool
  sample : Word
deriving DecidableEq, Repr

/-- The pins of a cycle that does nothing: rst = 0, tick_en = 0. -/
def Pins.idle {C : Type} : Pins C := ⟨none, false, 0⟩

/-- One clock cycle of the block: the pins of its three units. -/
structure Cycle where
  edge : Pins Unit
  uart : Pins UartCfg
  spi : Pins SpiCfg
deriving DecidableEq, Repr

/-- The cycle in which no unit does anything. -/
def Cycle.idle : Cycle := ⟨Pins.idle, Pins.idle, Pins.idle⟩

/-- The whole state of the block. -/
structure State where
  /-- The implementation parameters (00_scope.md R6); no step writes them (log 5). -/
  par : Params
  /-- The connections between units (R118); no step writes them (log 13). -/
  wire : Wiring
  edge : EdgeState
  /-- The UART configuration record, latched by RESET (10_state.md R24). -/
  uartCfg : UartCfg
  uart : UartState
  /-- The SPI configuration record, latched by RESET (10_state.md R25). -/
  spiCfg : SpiCfg
  spi : SpiState
  /-- EDGE's `out_valid` and `out_data` in the cycle just performed: `some v`, or `none` when `out_valid` = 0 (R116). -/
  edgeOut : Option Word
  /-- UART's `out_valid` and `out_data`. -/
  uartOut : Option Word
  /-- UART's `brk` and `ferr`. -/
  uartEvent : Option Event
  /-- SPI's `out_valid` and `out_data`. -/
  spiOut : Option Word
  /-- The model's own field (log 3): the clock cycles the host has still to supply, next first. -/
  input : List Cycle
deriving DecidableEq, Repr

/-- Faults: none. Nothing in the block traps and nothing halts (93_implementation_defined.md section 1; 60_exceptions.md
R204, R213). -/
inductive Fault where
deriving DecidableEq, Repr

/-- Refusals: where the spec's own treatment is `refuse` (00_scope.md R13). -/
inductive Refusal where
  /-- An arm of `exec` that has no meaning yet. No arm answers it in this model. Safe. -/
  | notModelled (mnemonic : String)
  /-- RESET with a record that is not legal or does not fit its fields (R114, R8, R6, R93; log 8). In a step
  it refuses the whole clock cycle, as every refusal of a unit's operation does (log 21). Safe. -/
  | illegalConfiguration (u : UnitId)
  /-- TICK, U.DATA, S.SHIFT, S.EMIT, S.LATCH: a channel index at or above `W` is read, which no run under a legal
  configuration does (R112, U1; log 9). Safe. -/
  | channelOutOfRange
  /-- U.SKIP, U.START, U.DATA, S.TCOUNT: 1 is subtracted from 0, which has no natural-number value and which no run under a
  legal configuration does (R144, R158, R173, U11; log 10). Safe. -/
  | belowZero
  /-- A step of a block whose units are connected in a ring or across different widths (R118, D24; log 13). Safe. -/
  | illegalWiring
deriving DecidableEq, Repr

/-- The outcome of a step or of an operation. -/
abbrev Result := Host.Outcome State Fault Refusal

/-- EDGE after RESET (10_state.md R50). -/
def EdgeState.reset : EdgeState := ⟨0⟩

/-- UART after RESET (10_state.md R51). -/
def UartState.reset : UartState := ⟨.idle, 0, 0, 0⟩

/-- SPI after RESET (10_state.md R52): three fields come from the record. -/
def SpiState.reset (c : SpiCfg) : SpiState :=
  ⟨0, 0, c.frameTimeout, c.clockPolarity, !c.frameActive⟩

/-- The block right after RESET of its three units. The parameters and the records are those of logs 5 and 6; the units are
not chained (log 13); the host has supplied nothing yet (log 3). -/
def State.reset : State :=
  { par := Params.vectors
    wire := Wiring.unchained
    edge := EdgeState.reset
    uartCfg := UartCfg.example95
    uart := UartState.reset
    spiCfg := SpiCfg.example95
    spi := SpiState.reset SpiCfg.example95
    edgeOut := none
    uartOut := none
    uartEvent := none
    spiOut := none
    input := [] }

end Sys2Proof.Machine
end

