-- ==== Sys2Proof/Machine/Operands.lean ====
section
/-! DEFINITION. What the operations compute from a sample and a configuration: the bus accessor (40_bus_and_tick.md
section 1), the delays of the UART unit (42_uart_framer.md R142, R147), the shift registers, and what RESET accepts. -/

namespace Sys2Proof.Machine

/-- `value(sample)`: the whole bus word (R111). The sample pins are `W` wires, so it is the low `W` bits (R115; log 11). -/
def value (p : Params) (x : Word) : Word := trunc p.w x

/-- `channel(sample, c)`: bit `c` of the sample (R110). An index at or above `W` has no value (R112, U1; log 9). -/
def channel (p : Params) (x : Word) (c : Nat) : Option Bool :=
  if c < p.w then some (x.testBit c) else none

/-- `n - 1`, which has no value when `n = 0` (R12, R158, R173; log 10). -/
def natPred : Nat → Option Nat
  | 0 => none
  | n + 1 => some n

/-- `start_delay(p) = (p - 1) + ((p - 1) >> 1) + (p >> 2)` (R142), of a period that is at least 1. -/
def startDelay (period : Nat) : Nat := (period - 1) + ((period - 1) >>> 1) + (period >>> 2)

/-- The ticks to ignore after a start bit: `start_delay(period)`; none when `period = 0`, where `period - 1` has no value
(R142, R158). -/
def startSkip (c : UartCfg) : Option Nat := (natPred c.period).map fun _ => startDelay c.period

/-- The ticks to ignore after a data bit: `period - 1` (R147). -/
def dataSkip (c : UartCfg) : Option Nat := natPred c.period

/-- `reg | (zext(i) << bit)`, in a register of `WORD_W` bits (R147, R12): the UART assembles least significant bit
first (20_memory.md R63). -/
def orBit (p : Params) (reg : Word) (i : Bool) (bit : Nat) : Word := trunc p.wordW (reg ||| (i.toNat <<< bit))

/-- `(reg << 1) | zext(da)`, in a register of `WORD_W` bits (R175, R176, R12): the SPI unit assembles most significant bit
first (20_memory.md R63). -/
def shiftIn (p : Params) (reg : Word) (da : Bool) : Word := trunc p.wordW ((reg <<< 1) ||| da.toNat)

/-- The records RESET accepts: the legal ones (R114, R8) whose fields fit their widths (R6; log 8). -/
def resetAccepts (p : Params) (c : UnitCfg) : Bool := c.legal p && c.fits p

end Sys2Proof.Machine
end

