-- ==== Sys2Proof/Machine/Flags.lean ====
section
/-! DEFINITION. The status of the block: the selector words, which are the tests a tick makes on the state at its start
(30_encoding.md R84 to R87, 43_spi_framer.md R179), and the codes of the mode output and of a UART tick's result
(30_encoding.md R81, R82; 40_bus_and_tick.md R116). The block has no condition codes (10_state.md R43). -/

namespace Sys2Proof.Machine

/-- The code of a mode (R81). -/
def encodeMode : UMode → BitVec 2
  | .idle => 0b00#2
  | .shift => 0b01#2
  | .brk => 0b10#2
  | .frameErr => 0b11#2

/-- Six bits, most significant first. -/
def bits6 (b5 b4 b3 b2 b1 b0 : Bool) : BitVec 6 :=
  BitVec.ofNat 6 (32 * b5.toNat + 16 * b4.toNat + 8 * b3.toNat + 4 * b2.toNat + 2 * b1.toNat + b0.toNat)

/-! ## EDGE, format FE (R85) -/

/-- Bit `d`: `value(sample) XOR last_sample` is nonzero. -/
def flagD (p : Params) (s : EdgeState) (x : Word) : Bool := decide (value p x ^^^ s.lastSample ≠ 0)

/-- The selector word of an EDGE tick. -/
def selFE (p : Params) (s : EdgeState) (x : Word) : BitVec 1 := BitVec.ofBool (flagD p s x)

/-! ## UART, format FU (R86) -/

/-- Bit `s`: `skip > 0`. -/
def flagS (s : UartState) : Bool := decide (0 < s.skip)

/-- Bit `c`: fewer than `nb_bits` bits collected. -/
def flagC (c : UartCfg) (s : UartState) : Bool := decide (s.bit < c.nbBits)

/-- Bit `z`: the register is all-zero. -/
def flagRegZero (s : UartState) : Bool := decide (s.reg = 0)

/-- The selector word `s mm i c z` for the sampled bit `i`. -/
def fuWord (c : UartCfg) (s : UartState) (i : Bool) : BitVec 6 :=
  bits6 (flagS s) ((encodeMode s.mode).getLsbD 1) ((encodeMode s.mode).getLsbD 0) i (flagC c s) (flagRegZero s)

/-- The selector word of a UART tick; none where the channel is out of range (R112). -/
def selFU (p : Params) (c : UartCfg) (s : UartState) (x : Word) : Option (BitVec 6) :=
  (channel p x c.channel).map (fuWord c s)

/-! ## SPI, format FS (R87, R179) -/

/-- Bit `a`, frame start. -/
def flagA (c : SpiCfg) (s : SpiState) (fr : Bool) : Bool :=
  c.frameEnable && (fr == c.frameActive) && (s.lastFrame != c.frameActive)

/-- Bit `t`, timeout active. -/
def flagT (c : SpiCfg) : Bool := c.timeoutEnable && decide (c.frameTimeout ≠ 0)

/-- Bit `z`, countdown expiring. -/
def flagExpiring (s : SpiState) : Bool := decide (s.countdown = 1)

/-- Bit `g`, gate open. -/
def flagG (c : SpiCfg) (fr : Bool) : Bool := !c.frameEnable || (fr == c.frameActive)

/-- Bit `e`, sampling edge. -/
def flagE (c : SpiCfg) (s : SpiState) (ck : Bool) : Bool := (ck != s.lastClock) && (ck == c.clockEdge)

/-- `c2`: the count after phases 1 and 2. -/
def countAfterClears (c : SpiCfg) (s : SpiState) (fr : Bool) : Nat :=
  if flagA c s fr || (flagT c && flagExpiring s) then 0 else s.count

/-- Bit `f`, word completing: `c2 + 1 = nb_bits`. -/
def flagF (c : SpiCfg) (s : SpiState) (fr : Bool) : Bool := decide (countAfterClears c s fr + 1 = c.nbBits)

/-- The selector word `a t z g e f` for the clock bit `ck` and the frame bit `fr`. -/
def fsWord (c : SpiCfg) (s : SpiState) (ck fr : Bool) : BitVec 6 :=
  bits6 (flagA c s fr) (flagT c) (flagExpiring s) (flagG c fr) (flagE c s ck) (flagF c s fr)

/-- The selector word of an SPI tick; none where a channel is out of range (R112). All three channels are read on every
tick (R171). -/
def selFS (p : Params) (c : SpiCfg) (s : SpiState) (x : Word) : Option (BitVec 6) :=
  match channel p x c.clockChannel, channel p x c.frameChannel, channel p x c.dataChannel with
  | some ck, some fr, some _ => some (fsWord c s ck fr)
  | _, _, _ => none

/-! ## Outputs at the port (R115, R116) -/

/-- The `mode` output: `UART.mode` after the tick. -/
def modePins (s : State) : BitVec 2 := encodeMode s.uart.mode

/-- The `brk` output. -/
def brkPin (s : State) : Bool := decide (s.uartEvent = some .brk)

/-- The `ferr` output. -/
def ferrPin (s : State) : Bool := decide (s.uartEvent = some .frameErr)

/-- The result code of a UART tick (R82): 0 none, 1 word, 2 break, 3 frame_err. -/
def resultCode (s : State) : BitVec 2 :=
  match s.uartEvent with
  | some .brk => 2
  | some .frameErr => 3
  | none => if s.uartOut.isSome then 1 else 0

end Sys2Proof.Machine
end

