-- ==== Sys2Proof/Machine/Ops.lean ====
section
/-! DEFINITION. The named operations over the state that the meanings share: sequencing, emitting, clearing a shift
register, and the detection of a framing condition with the recovery from it (60_exceptions.md R201, R202, R206, R207),
which is what this block has in place of taking an exception and returning from it. -/

namespace Sys2Proof.Machine

/-- Run `f` on the state that `r` answers; a fault or a refusal stays. -/
def andThen (r : Result) (f : State → Result) : Result :=
  match r with
  | .next s => f s
  | .fault e => .fault e
  | .refused e => .refused e

/-- Run `f` on a value, or refuse where there is none. -/
def withValue {α : Type} (v : Option α) (why : Refusal) (f : α → Result) : Result :=
  match v with
  | some a => f a
  | none => .refused why

/-- The output a unit presents in the cycle just performed (R116). -/
def State.out (s : State) : UnitId → Option Word
  | .edge => s.edgeOut
  | .uart => s.uartOut
  | .spi => s.spiOut

/-- Present nothing at a unit's outputs: a cycle presents an output or an event only where its operation does
(R115, R116). -/
def State.clearOut (s : State) : UnitId → State
  | .edge => { s with edgeOut := none }
  | .uart => { s with uartOut := none, uartEvent := none }
  | .spi => { s with spiOut := none }

def State.withUart (s : State) (u : UartState) : State := { s with uart := u }

def State.withSpi (s : State) (u : SpiState) : State := { s with spi := u }

/-- Write `UART.mode`. -/
def State.withMode (s : State) (m : UMode) : State := s.withUart { s.uart with mode := m }

/-- The mode a framing condition puts the unit in (R201, R202). -/
def Event.mode : Event → UMode
  | .brk => .brk
  | .frameErr => .frameErr

/-- Detect a framing condition (R201, R202, R206): the mode becomes the condition's, one event is reported, nothing is
output. Nothing is saved, no handler runs; `reg`, `bit` and `skip` keep their values. -/
def raiseCondition (e : Event) (s : State) : State :=
  { s.withMode e.mode with uartEvent := some e }

/-- Recover from a framing condition (R207): the mode becomes `Idle`; there is nothing to restore. -/
def recoverIdle (s : State) : State := s.withMode .idle

/-- `reg <- 0`, `count <- 0`: the bits collected so far are dropped (R172, R174, R176). -/
def SpiState.clearShift (u : SpiState) : SpiState := { u with reg := 0, count := 0 }

/-- `countdown <- frame_timeout` (R174, R176). -/
def SpiState.reload (c : SpiCfg) (u : SpiState) : SpiState := { u with countdown := c.frameTimeout }

end Sys2Proof.Machine
end

