-- ==== Sys2Proof/Machine/Edge.lean ====
section
/-! DEFINITION. The operations of the EDGE unit (41_edge_filter.md). `x` is the tick's sample. -/

namespace Sys2Proof.Machine

/-- E.HOLD (R131): `last_sample <- x`; no output. -/
def execEHold (x : Word) (s : State) : Result := .next { s with edge := ⟨value s.par x⟩ }

/-- E.EMIT (R132): `last_sample <- x`; `emit x`. -/
def execEEmit (x : Word) (s : State) : Result :=
  .next { s with edge := ⟨value s.par x⟩, edgeOut := some (value s.par x) }

/-- The operation an EDGE selector word selects (R88). -/
def runEdgeOp (o : EdgeOp) (x : Word) (s : State) : Result :=
  match o with
  | .hold => execEHold x s
  | .emit => execEEmit x s

/-- A tick of the EDGE unit (R133, R84). -/
def edgeTick (x : Word) (s : State) : Result := runEdgeOp (decodeFE (selFE s.par s.edge x)) x s

end Sys2Proof.Machine
end

