-- ==== Sys2Proof/Machine/Spi.lean ====
section
/-! DEFINITION. The operations of the SPI unit (43_spi_framer.md). `x` is the tick's sample. -/

namespace Sys2Proof.Machine

/-- S.FSTART (R172), phase 1: `reg <- 0`; `count <- 0`. -/
def execSFstart (s : State) : Result := .next (s.withSpi s.spi.clearShift)

/-- S.TCOUNT (R173), phase 2: `countdown <- countdown - 1`. -/
def execSTcount (s : State) : Result :=
  withValue (natPred s.spi.countdown) .belowZero fun k => .next (s.withSpi { s.spi with countdown := k })

/-- S.TFIRE (R174), phase 2: `reg <- 0`; `count <- 0`; `countdown <- frame_timeout`. -/
def execSTfire (s : State) : Result := .next (s.withSpi (s.spi.clearShift.reload s.spiCfg))

/-- S.SHIFT (R175), phase 3: `reg <- (reg << 1) | da`; `count <- count + 1`. -/
def execSShift (x : Word) (s : State) : Result :=
  withValue (channel s.par x s.spiCfg.dataChannel) .channelOutOfRange fun da =>
    .next (s.withSpi { s.spi with reg := shiftIn s.par s.spi.reg da, count := s.spi.count + 1 })

/-- S.EMIT (R176), phase 3: `emit ((reg << 1) | da)`; `reg <- 0`; `count <- 0`; `countdown <- frame_timeout`. -/
def execSEmit (x : Word) (s : State) : Result :=
  withValue (channel s.par x s.spiCfg.dataChannel) .channelOutOfRange fun da =>
    .next { s.withSpi (s.spi.clearShift.reload s.spiCfg) with spiOut := some (shiftIn s.par s.spi.reg da) }

/-- S.LATCH (R177), phase 4: `last_clock <- ck`; `last_frame <- fr`. -/
def execSLatch (x : Word) (s : State) : Result :=
  withValue (channel s.par x s.spiCfg.clockChannel) .channelOutOfRange fun ck =>
    withValue (channel s.par x s.spiCfg.frameChannel) .channelOutOfRange fun fr =>
      .next (s.withSpi { s.spi with lastClock := ck, lastFrame := fr })

/-- The operation an SPI selector word selects in one phase; nothing where none matches (R90). -/
def runSpiOp (o : Option SpiOp) (x : Word) (s : State) : Result :=
  match o with
  | none => .next s
  | some .fstart => execSFstart s
  | some .tcount => execSTcount s
  | some .tfire => execSTfire s
  | some .shift => execSShift x s
  | some .emit => execSEmit x s
  | some .latch => execSLatch x s

/-- The four phases in order, each on the state the one before it left (R170), all selected by the word `w` of the state at
the start of the tick (R179). -/
def spiPhases (w : BitVec 6) (x : Word) (s : State) : Result :=
  andThen (runSpiOp (decodeFS .one w) x s) fun s1 =>
    andThen (runSpiOp (decodeFS .two w) x s1) fun s2 =>
      andThen (runSpiOp (decodeFS .three w) x s2) fun s3 =>
        runSpiOp (decodeFS .four w) x s3

/-- A tick of the SPI unit (R178, R84). -/
def spiTick (x : Word) (s : State) : Result :=
  withValue (selFS s.par s.spiCfg s.spi x) .channelOutOfRange fun w => spiPhases w x s

end Sys2Proof.Machine
end

