-- ==== Sys2Proof/Machine/Uart.lean ====
section
/-! DEFINITION. The operations of the UART unit (42_uart_framer.md). `x` is the tick's sample. -/

namespace Sys2Proof.Machine

/-- U.SKIP (R144): `skip <- skip - 1`. -/
def execUSkip (s : State) : Result :=
  withValue (natPred s.uart.skip) .belowZero fun k => .next (s.withUart { s.uart with skip := k })

/-- U.IDLE (R145): no state change. -/
def execUIdle (s : State) : Result := .next s

/-- U.START (R146): `mode <- Shift`; `bit <- 0`; `reg <- 0`; `skip <- start_delay(period)`. -/
def execUStart (s : State) : Result :=
  withValue (startSkip s.uartCfg) .belowZero fun k => .next (s.withUart ⟨.shift, 0, 0, k⟩)

/-- U.DATA (R147): `reg <- reg | (i << bit)`; `bit <- bit + 1`; `skip <- period - 1`. -/
def execUData (x : Word) (s : State) : Result :=
  withValue (channel s.par x s.uartCfg.channel) .channelOutOfRange fun i =>
    withValue (dataSkip s.uartCfg) .belowZero fun k =>
      .next (s.withUart { s.uart with reg := orBit s.par s.uart.reg i s.uart.bit, bit := s.uart.bit + 1, skip := k })

/-- U.STOP (R148): `emit reg`; `mode <- Idle`; `reg`, `bit` and `skip` keep their values (D21). -/
def execUStop (s : State) : Result := .next { s.withMode .idle with uartOut := some s.uart.reg }

/-- U.BREAK (R149): the break condition is detected. -/
def execUBreak (s : State) : Result := .next (raiseCondition .brk s)

/-- U.FERR (R150): the frame-error condition is detected; the assembled word is not output. -/
def execUFerr (s : State) : Result := .next (raiseCondition .frameErr s)

/-- U.BWAIT (R151): no state change. -/
def execUBwait (s : State) : Result := .next s

/-- U.BREC (R152): `mode <- Idle`. -/
def execUBrec (s : State) : Result := .next (recoverIdle s)

/-- U.FWAIT (R153): no state change. -/
def execUFwait (s : State) : Result := .next s

/-- U.FREC (R154): `mode <- Idle`. -/
def execUFrec (s : State) : Result := .next (recoverIdle s)

/-- The operation a UART selector word selects (R89). -/
def runUartOp (o : UartOp) (x : Word) (s : State) : Result :=
  match o with
  | .skip => execUSkip s
  | .idle => execUIdle s
  | .start => execUStart s
  | .data => execUData x s
  | .stop => execUStop s
  | .brk => execUBreak s
  | .ferr => execUFerr s
  | .bwait => execUBwait s
  | .brec => execUBrec s
  | .fwait => execUFwait s
  | .frec => execUFrec s

/-- A tick of the UART unit (R140, R84): one operation. -/
def uartTick (x : Word) (s : State) : Result :=
  withValue (selFU s.par s.uartCfg s.uart x) .channelOutOfRange fun w => runUartOp (decodeFU w) x s

end Sys2Proof.Machine
end

