-- ==== Sys2Proof/Machine/Port.lean ====
section
/-! DEFINITION. The operations of a unit's port: RESET, TICK and the cycle that does nothing (40_bus_and_tick.md R113 to
R116). Each presents at the unit's outputs what its own cycle presents and nothing else. -/

namespace Sys2Proof.Machine

/-- The unit with the record `c` and its state after RESET (R114, 10_state.md R50, R51, R52). -/
def State.construct (s : State) : UnitCfg → State
  | .edge => { s with edge := EdgeState.reset }
  | .uart c => { s with uartCfg := c, uart := UartState.reset }
  | .spi c => { s with spiCfg := c, spi := SpiState.reset c }

/-- RESET(cfg) (R114): refused for a record that is not legal; else the unit is constructed anew and emits nothing. -/
def execReset (c : UnitCfg) (s : State) : Result :=
  if resetAccepts s.par c then .next ((s.clearOut c.unit).construct c) else .refused (.illegalConfiguration c.unit)

/-- TICK(sample) (R113): the operation or operations the unit's selector word selects. -/
def execTick (u : UnitId) (x : Word) (s : State) : Result :=
  match u with
  | .edge => edgeTick x (s.clearOut .edge)
  | .uart => uartTick x (s.clearOut .uart)
  | .spi => spiTick x (s.clearOut .spi)

/-- IDLECYCLE (R115): no state change, no output, no event. -/
def execIdleCycle (u : UnitId) (s : State) : Result := .next (s.clearOut u)

end Sys2Proof.Machine
end

