-- ==== Sys2Proof/Machine/Dispatch.lean ====
section
/-! DEFINITION. The dispatch: one arm for each operation, one meaning for each arm. -/

namespace Sys2Proof.Machine

def exec (i : Instr) (s : State) : Host.Outcome State Fault Refusal :=
  match i with
  | .reset c => Sys2Proof.Machine.execReset c s
  | .tick u x => Sys2Proof.Machine.execTick u x s
  | .idleCycle u => Sys2Proof.Machine.execIdleCycle u s
  | .eHold x => Sys2Proof.Machine.execEHold x s
  | .eEmit x => Sys2Proof.Machine.execEEmit x s
  | .uSkip => Sys2Proof.Machine.execUSkip s
  | .uIdle => Sys2Proof.Machine.execUIdle s
  | .uStart => Sys2Proof.Machine.execUStart s
  | .uData x => Sys2Proof.Machine.execUData x s
  | .uStop => Sys2Proof.Machine.execUStop s
  | .uBreak => Sys2Proof.Machine.execUBreak s
  | .uFerr => Sys2Proof.Machine.execUFerr s
  | .uBwait => Sys2Proof.Machine.execUBwait s
  | .uBrec => Sys2Proof.Machine.execUBrec s
  | .uFwait => Sys2Proof.Machine.execUFwait s
  | .uFrec => Sys2Proof.Machine.execUFrec s
  | .sFstart => Sys2Proof.Machine.execSFstart s
  | .sTcount => Sys2Proof.Machine.execSTcount s
  | .sTfire => Sys2Proof.Machine.execSTfire s
  | .sShift x => Sys2Proof.Machine.execSShift x s
  | .sEmit x => Sys2Proof.Machine.execSEmit x s
  | .sLatch x => Sys2Proof.Machine.execSLatch x s

end Sys2Proof.Machine
end

