-- ==== Sys2Proof/Machine/Fetch.lean ====
section
/-! DEFINITION. What a clock cycle of the block runs: the cycle the host supplies next, the order in which the three units
are evaluated, and the port operation each unit's pins select (40_bus_and_tick.md R115, R118; 30_encoding.md R100). There
is no program counter and nothing is fetched from a memory (10_state.md R22). -/

namespace Sys2Proof.Machine

/-- The next clock cycle: the host's next one, or a cycle with rst = 0 and tick_en = 0 when it has supplied no more, so that
the units keep their state (R119, 60_exceptions.md R213; log 3). -/
def nextCycle (s : State) : Cycle := s.input.headD Cycle.idle

/-- The state with the next clock cycle consumed. -/
def dropCycle (s : State) : State := { s with input := s.input.tail }

/-- The order in which the units are evaluated within a cycle: a unit after the one that feeds it, so that a chained unit
sees what its source emits in the same cycle (R118; log 13). None where the connections are not legal. -/
def unitOrder (p : Params) (w : Wiring) : Option (List UnitId) :=
  if w.legal p then unitOrders.find? (w.respects []) else none

/-- The record on a unit's cfg inputs when its rst is 1 (R115). -/
def Cycle.rst (c : Cycle) : UnitId → Option UnitCfg
  | .edge => c.edge.rst.map fun _ => .edge
  | .uart => c.uart.rst.map .uart
  | .spi => c.spi.rst.map .spi

/-- The tick_en and sample pins of a unit as the host drives them: the sample when tick_en is 1. -/
def Cycle.hostTick (c : Cycle) : UnitId → Option Word
  | .edge => if c.edge.tickEn then some c.edge.sample else none
  | .uart => if c.uart.tickEn then some c.uart.sample else none
  | .spi => if c.spi.tickEn then some c.spi.sample else none

/-- The sample a unit ticks on in this cycle, if its tick_en is 1: the host's, or what its source emits in this cycle,
since `B.tick_en = A.out_valid` and `B.sample = A.out_data` (R118). -/
def tickInput (c : Cycle) (u : UnitId) (s : State) : Option Word :=
  match s.wire.source u with
  | .host => c.hostTick u
  | .unit v => s.out v

/-- The PORT word of a unit: `rst` at bit 1, `tick_en` at bit 0 (R100). -/
def portWord (c : Cycle) (u : UnitId) (s : State) : BitVec 2 :=
  BitVec.ofNat 2 (2 * (c.rst u).isSome.toNat + (tickInput c u s).isSome.toNat)

/-- The port operation of a unit in this cycle: the decoding of its PORT word, with the record or the sample on its pins.
The last two arms answer words whose operand is missing, which `portWord` never forms. -/
def fetch (c : Cycle) (u : UnitId) (s : State) : Instr :=
  match decodePORT (portWord c u s), c.rst u, tickInput c u s with
  | .reset, some k, _ => .reset k
  | .tick, _, some x => .tick u x
  | .idle, _, _ => .idleCycle u
  | .reset, none, _ => .idleCycle u
  | .tick, _, none => .idleCycle u

/-! ## Preparing a cycle that runs a given word (for `withFetchWord`) -/

/-- A cycle in which only EDGE has work. -/
def Cycle.ofEdge (pins : Pins Unit) : Cycle := ⟨pins, Pins.idle, Pins.idle⟩

/-- A cycle in which only UART has work. -/
def Cycle.ofUart (pins : Pins UartCfg) : Cycle := ⟨Pins.idle, pins, Pins.idle⟩

/-- A cycle in which only SPI has work. -/
def Cycle.ofSpi (pins : Pins SpiCfg) : Cycle := ⟨Pins.idle, Pins.idle, pins⟩

/-- The pins of a TICK. -/
def Pins.ofTick {C : Type} (x : Word) : Pins C := ⟨none, true, x⟩

/-- The pins of a RESET. -/
def Pins.ofReset {C : Type} (c : C) : Pins C := ⟨some c, false, 0⟩

/-- The bus word with bit `c` at level `b` and every other channel 0. -/
def oneChannel (c : Nat) (b : Bool) : Word := b.toNat <<< c

/-- The block with its units fed by the host and the cycle `c` supplied next. -/
def State.supply (s : State) (c : Cycle) : State := { s with wire := Wiring.unchained, input := c :: s.input }

/-- The mode whose code is the bits `m1 m0` (R81). -/
def decodeMode (m1 m0 : Bool) : UMode :=
  match m1, m0 with
  | false, false => .idle
  | false, true => .shift
  | true, false => .brk
  | true, true => .frameErr

/-- A UART state, near `u`, in which the tests of R86 other than `i` give the bits of `w`; a field changes only where its test
asks for it. -/
def presetUart (c : UartCfg) (u : UartState) (w : BitVec 6) : UartState :=
  { mode := decodeMode (w.getLsbD 4) (w.getLsbD 3)
    reg := if flagRegZero u = w.getLsbD 0 then u.reg else if w.getLsbD 0 then 0 else 1
    bit := if flagC c u = w.getLsbD 1 then u.bit else if w.getLsbD 1 then 0 else c.nbBits
    skip := if flagS u = w.getLsbD 5 then u.skip else if w.getLsbD 5 then 1 else 0 }

/-- The port of EDGE about to run the PORT word `w`: RESET, TICK with sample 0, or nothing. -/
def supplyPort (w : Nat) (s : State) : State :=
  match decodePORT (BitVec.ofNat 2 w) with
  | .reset => s.supply (Cycle.ofEdge (Pins.ofReset ()))
  | .tick => s.supply (Cycle.ofEdge (Pins.ofTick 0))
  | .idle => s.supply Cycle.idle

/-- EDGE about to run the FE word `w` on sample 0: `last_sample` is 0 for `d = 0` and 1 for `d = 1`. -/
def supplyFE (w : Nat) (s : State) : State :=
  { s.supply (Cycle.ofEdge (Pins.ofTick 0)) with edge := ⟨w % 2⟩ }

/-- UART about to run the FU word `w`: the unit's registers are set so that its selector word is `w`. A word with `c = 1` needs
a record with at least one data bit. -/
def supplyFU (w : Nat) (s : State) : State :=
  let b := BitVec.ofNat 6 w
  let c := if b.getLsbD 1 && decide (s.uartCfg.nbBits = 0) then { s.uartCfg with nbBits := 1 } else s.uartCfg
  { s.supply (Cycle.ofUart (Pins.ofTick (oneChannel c.channel (b.getLsbD 2)))) with
    uartCfg := c, uart := presetUart c s.uart b }

/-- SPI about to run S.SHIFT (`w` even) or S.EMIT (`w` odd) in phase 3: the gate is open and the timeout off, so that phases 1
and 2 do nothing, the sample makes a sampling edge, and `count` is set for the completion test. -/
def supplyFS3 (w : Nat) (s : State) : State :=
  let c := { s.spiCfg with frameEnable := false, timeoutEnable := false }
  let count :=
    if w % 2 = 1 then c.nbBits - 1
    else if s.spi.count + 1 = c.nbBits then (if c.nbBits = 1 then 1 else 0) else s.spi.count
  { s.supply (Cycle.ofSpi (Pins.ofTick (oneChannel c.clockChannel c.clockEdge))) with
    spiCfg := c, spi := { s.spi with count := count, lastClock := !c.clockEdge } }

/-- The state whose next step runs the word `w` that `decodeTableWord` reads (log 16). -/
def supplyTableWord (nbits w : Nat) (s : State) : State :=
  match tablePlace nbits w with
  | .port _ => supplyPort w s
  | .fe => supplyFE w s
  | .fu => supplyFU w s
  | .fs _ => supplyFS3 w s

end Sys2Proof.Machine
end

