-- ==== Sys2Proof/Machine/Clock.lean ====
section
/-! DEFINITION. One clock cycle of the block: each unit in turn performs the port operation its pins select
(40_bus_and_tick.md R115). -/

namespace Sys2Proof.Machine

/-- The units of a list perform their port operations in the cycle `c`, in the order of the list.

DESIGN CHOICE (log 21, safe): where one unit's operation is refused the whole cycle is refused. `refuse` is said of the unit it
concerns (00_scope.md R8, 40_bus_and_tick.md R114, 60_exceptions.md R203), instances do not interact (20_memory.md R70), and the
spec does not say whether the other units' operations of the same cycle keep their meaning: the model gives them no next
state. -/
def runUnits (c : Cycle) : List UnitId → State → Result
  | [], s => .next s
  | u :: us, s => andThen (exec (fetch c u s) s) (runUnits c us)

/-- One clock cycle of the whole block (R115, R118); refused as a whole where a unit's operation is (log 21). -/
def clockCycle (s : State) : Result :=
  withValue (unitOrder s.par s.wire) .illegalWiring fun us => runUnits (nextCycle s) us (dropCycle s)

end Sys2Proof.Machine
end

