-- ==== Sys2Proof/Machine/Step.lean ====
section
/-! DEFINITION. The step of the machine: one clock cycle of the block. -/

namespace Sys2Proof.Machine

/-- One step: the next clock cycle, in which every unit performs RESET, TICK or nothing (logs 1, 3, 21). -/
def step (s : State) : Host.Outcome State Fault Refusal := clockCycle s

/-- The state whose next step runs the word `w` of opcode_table.json as its one operation (log 16). -/
def State.withFetchWord (s : State) (nbits w : Nat) : State := supplyTableWord nbits w s

end Sys2Proof.Machine
end

