-- ==== Sys2Proof/Machine/Procedure.lean ====
section
/-! DEFINITION. The whole ticks as the spec writes them, each one sequential procedure over a unit's own records: R133 for
EDGE, the pseudocode of R140 for UART, that of R178 for SPI. `step` does not use them; the statements say that a TICK, which goes through the selector words
and the operations, computes the same function (00_scope.md R10). -/

namespace Sys2Proof.Machine

/-- R133: the new state and the output. -/
def edgeProcedure (p : Params) (s : EdgeState) (sample : Word) : EdgeState × Option Word :=
  let x := value p sample
  (⟨x⟩, if x ^^^ s.lastSample ≠ 0 then some x else none)

/-- R140 for the sampled bit `i`, with the effects of R144 to R154: the new state, the output and the event. -/
def uartProcedure (p : Params) (c : UartCfg) (s : UartState) (i : Bool) : UartState × Option Word × Option Event :=
  if s.skip > 0 then ({ s with skip := s.skip - 1 }, none, none)
  else
    match s.mode with
    | .idle => if i then (s, none, none) else (⟨.shift, 0, 0, startDelay c.period⟩, none, none)
    | .shift =>
      if s.bit < c.nbBits then
        ({ s with reg := orBit p s.reg i s.bit, bit := s.bit + 1, skip := c.period - 1 }, none, none)
      else if i then ({ s with mode := .idle }, some s.reg, none)
      else if s.reg = 0 then ({ s with mode := .brk }, none, some .brk)
      else ({ s with mode := .frameErr }, none, some .frameErr)
    | .brk => if i then ({ s with mode := .idle }, none, none) else (s, none, none)
    | .frameErr => if i then ({ s with mode := .idle }, none, none) else (s, none, none)

/-- R178, phase 1. -/
def spiProc1 (c : SpiCfg) (fr : Bool) (s : SpiState) : SpiState :=
  if c.frameEnable = true ∧ fr = c.frameActive ∧ s.lastFrame ≠ c.frameActive then { s with reg := 0, count := 0 } else s

/-- R178, phase 2: decrement first, then test for zero. -/
def spiProc2 (c : SpiCfg) (s : SpiState) : SpiState :=
  if c.timeoutEnable = true ∧ c.frameTimeout ≠ 0 then
    let s1 := { s with countdown := s.countdown - 1 }
    if s1.countdown = 0 then { s1 with reg := 0, count := 0, countdown := c.frameTimeout } else s1
  else s

/-- R178, phase 3: shift first, then test for completion. -/
def spiProc3 (p : Params) (c : SpiCfg) (ck fr da : Bool) (s : SpiState) : SpiState × Option Word :=
  if c.frameEnable = false ∨ fr = c.frameActive then
    if ck ≠ s.lastClock ∧ ck = c.clockEdge then
      let s1 := { s with reg := shiftIn p s.reg da, count := s.count + 1 }
      if s1.count = c.nbBits then
        ({ s1 with reg := 0, count := 0, countdown := c.frameTimeout }, some s1.reg)
      else (s1, none)
    else (s, none)
  else (s, none)

/-- R178, the four phases in order, for the clock, frame and data bits of the sample. -/
def spiProcedure (p : Params) (c : SpiCfg) (s : SpiState) (ck fr da : Bool) : SpiState × Option Word :=
  let r := spiProc3 p c ck fr da (spiProc2 c (spiProc1 c fr s))
  ({ r.1 with lastClock := ck, lastFrame := fr }, r.2)

end Sys2Proof.Machine
end

