-- ==== Sys2Proof/Machine/Stimulus.lean ====
section
/-! DEFINITION. The pseudo-operations of the stimulus notation (30_encoding.md R96, R97, R98): the samples each stands for,
and the clock cycles that tick one unit on a list of samples. -/

namespace Sys2Proof.Machine

/-- Level `k` of a UART frame for the word `v`: the start bit 0, the data bits least significant first, the stop bit 1
(R96). -/
def frameLevel (c : UartCfg) (v : Word) (k : Nat) : Bool :=
  if k = 0 then false else if k ≤ c.nbBits then v.testBit (k - 1) else true

/-- `UFRAME w` (R96): tick `j` of the expansion has level `floor(j / period)` on `channel`. -/
def uframe (c : UartCfg) (v : Word) : List Word :=
  (List.range ((c.nbBits + 2) * c.period)).map fun j => oneChannel c.channel (frameLevel c v (j / c.period))

/-- `UIDLE n` (R97). -/
def uidle (c : UartCfg) (n : Nat) : List Word := List.replicate n (oneChannel c.channel true)

/-- The bus word with the given clock, data and frame bits and every other channel 0 (R98).

DESIGN CHOICE (log 22, unsafe): R8 allows two of the three channels to be the same index, and R98 does not say which of the bits
such a channel then carries. Here it carries their OR, so that a high data or frame bit can hide a low clock level. -/
def spiSample (c : SpiCfg) (ck da fr : Bool) : Word :=
  oneChannel c.clockChannel ck ||| oneChannel c.dataChannel da ||| oneChannel c.frameChannel fr

/-- `SBIT d fr` (R98). -/
def sbit (c : SpiCfg) (d fr : Bool) : List Word := [spiSample c (!c.clockEdge) d fr, spiSample c c.clockEdge d fr]

/-- The bits of an `n`-bit word, most significant first. -/
def bitsMsbFirst (v : Word) : Nat → List Bool
  | 0 => []
  | n + 1 => v.testBit n :: bitsMsbFirst v n

/-- `SWORD w fr` (R98). -/
def sword (c : SpiCfg) (v : Word) (fr : Bool) : List Word := (bitsMsbFirst v c.nbBits).flatMap fun d => sbit c d fr

/-- The clock cycles in which EDGE alone ticks on the samples. -/
def edgeCycles (xs : List Word) : List Cycle := xs.map fun x => Cycle.ofEdge (Pins.ofTick x)

/-- The clock cycles in which UART alone ticks on the samples. -/
def uartCycles (xs : List Word) : List Cycle := xs.map fun x => Cycle.ofUart (Pins.ofTick x)

/-- The clock cycles in which SPI alone ticks on the samples. -/
def spiCycles (xs : List Word) : List Cycle := xs.map fun x => Cycle.ofSpi (Pins.ofTick x)

end Sys2Proof.Machine
end

