-- ==== Sys2Proof/Safety.lean ====
section
/-! DEFINITION. The terms the statements use: the invariants of the units (10_state.md R33, R41, R42), a good state of the
block, and the observation of a run (40_bus_and_tick.md R117). -/

namespace Sys2Proof.Machine

/-- R33, (i) to (v). -/
structure UartInv (c : UartCfg) (s : UartState) : Prop where
  bit_le : s.bit ≤ c.nbBits
  reg_lt : s.reg < 2 ^ s.bit
  skip_shift : 0 < s.skip → s.mode = .shift
  skip_le : if s.bit = 0 then s.skip ≤ startDelay c.period else s.skip ≤ c.period - 1
  skip_zero : s.mode ≠ .shift → s.skip = 0

/-- The timeout of an SPI record is active (R42). -/
def SpiCfg.timeoutActive (c : SpiCfg) : Prop := c.timeoutEnable = true ∧ c.frameTimeout ≠ 0

/-- R41 and R42. That `countdown` never exceeds `frame_timeout` holds whether or not the timeout is active. -/
structure SpiInv (c : SpiCfg) (s : SpiState) : Prop where
  count_lt : s.count < c.nbBits
  reg_lt : s.reg < 2 ^ s.count
  countdown_pos : SpiCfg.timeoutActive c → 1 ≤ s.countdown
  countdown_le : s.countdown ≤ c.frameTimeout

/-- A good state: parameters, connections and records are legal (R6, R8, R118), each record fits its fields, and the units
satisfy their invariants. It holds after reset, and every state a run reaches from a good state is good. -/
structure State.Good (s : State) : Prop where
  par_ok : s.par.ok = true
  wire_legal : s.wire.legal s.par = true
  edge_lt : s.edge.lastSample < 2 ^ s.par.w
  uart_legal : s.uartCfg.legal s.par = true
  uart_fits : s.uartCfg.fits s.par = true
  uart_inv : UartInv s.uartCfg s.uart
  spi_legal : s.spiCfg.legal s.par = true
  spi_fits : s.spiCfg.fits s.par = true
  spi_inv : SpiInv s.spiCfg s.spi

/-- Every record that a reset of the cycle constructs a unit from is one RESET accepts (R114). -/
def Cycle.resetsAccepted (p : Params) (c : Cycle) : Prop :=
  ∀ u k, c.rst u = some k → resetAccepts p k = true

/-- The outputs a unit presents in the next `n` cycles, in order, cycles that present none left out (R117). -/
def outputs (u : UnitId) : Nat → State → List Word
  | 0, _ => []
  | n + 1, s =>
    match step s with
    | .next t => (t.out u).toList ++ outputs u n t
    | .fault _ => []
    | .refused _ => []

/-- The events of the UART in the next `n` cycles, in order (R117). -/
def events : Nat → State → List Event
  | 0, _ => []
  | n + 1, s =>
    match step s with
    | .next t => t.uartEvent.toList ++ events n t
    | .fault _ => []
    | .refused _ => []

/-- The state after `n` cycles, if the block gets there. -/
def after (n : Nat) (s : State) : Option State :=
  match Host.Core.run Sys2Proof.core n s with
  | .next t => some t
  | .fault _ => none
  | .refused _ => none

/-- The elements of a list that differ from the one before, the one before the first being `prev` (R135). -/
def changes (prev : Word) : List Word → List Word
  | [] => []
  | x :: xs => if x = prev then changes x xs else x :: changes x xs

/-- The sampling edges of an SPI unit in a list of samples: the clock bit changes and lands on `clock_edge`
(R181, R179). -/
def edgeCount (c : SpiCfg) (lastClock : Bool) : List Word → Nat
  | [] => 0
  | x :: xs =>
    (if x.testBit c.clockChannel ≠ lastClock ∧ x.testBit c.clockChannel = c.clockEdge then 1 else 0) +
      edgeCount c (x.testBit c.clockChannel) xs

/-- The unit whose record, configuration and outputs an operation works on. -/
def opUnit : Instr → UnitId
  | .reset c => c.unit
  | .tick u _ => u
  | .idleCycle u => u
  | .eHold _ => .edge
  | .eEmit _ => .edge
  | .uSkip => .uart
  | .uIdle => .uart
  | .uStart => .uart
  | .uData _ => .uart
  | .uStop => .uart
  | .uBreak => .uart
  | .uFerr => .uart
  | .uBwait => .uart
  | .uBrec => .uart
  | .uFwait => .uart
  | .uFrec => .uart
  | .sFstart => .spi
  | .sTcount => .spi
  | .sTfire => .spi
  | .sShift _ => .spi
  | .sEmit _ => .spi
  | .sLatch _ => .spi

/-- The two states agree on everything the operations of one unit read or write: the parameters, and that unit's record,
configuration and outputs. -/
def sameFor (u : UnitId) (s t : State) : Prop :=
  s.par = t.par ∧
    match u with
    | .edge => s.edge = t.edge ∧ s.edgeOut = t.edgeOut
    | .uart => s.uartCfg = t.uartCfg ∧ s.uart = t.uart ∧ s.uartOut = t.uartOut ∧ s.uartEvent = t.uartEvent
    | .spi => s.spiCfg = t.spiCfg ∧ s.spi = t.spi ∧ s.spiOut = t.spiOut

end Sys2Proof.Machine
end

