-- ==== Sys2Proof/Certificates/Slice0/Obligations.lean ====
section
/-! DEFINITION. The statements about the block, for the provers. A docstring names the rule of spec/ a statement formalises, and
says where a clause rests on a decision of the spec (92_eei_decisions.md) or on a log entry of this model. -/

open Sys2Proof Sys2Proof.Machine

/-! ## Encoding -/

/-- Words written out from the patterns of R88, R89, R90 and R100 decode to the operations they stand for. The encodings are the
spec's decisions D1, D9, D11; the operand above the low byte is this model's (log 15). -/
def Obligations.WordsOfEveryFormatDecode : Prop :=
  decode Params.vectors (.port .spi) 0b00 = .ok (.idleCycle .spi) ∧
  decode Params.vectors (.port .edge) (0b01 + 256 * 0xA5) = .ok (.tick .edge 0xA5) ∧
  decode Params.vectors (.port .edge) 0b10 = .ok (.reset .edge) ∧
  decode Params.vectors (.port .edge) 0b11 = .ok (.reset .edge) ∧
  decode Params.vectors .fe (0b1 + 256 * 0x04) = .ok (.eEmit 0x04) ∧
  decode Params.vectors .fu 0b100000 = .ok .uSkip ∧
  decode Params.vectors .fu (0b001110 + 256 * 0x02) = .ok (.uData 0x02) ∧
  decode Params.vectors .fu 0b001101 = .ok .uStop ∧
  decode Params.vectors .fu 0b001001 = .ok .uBreak ∧
  decode Params.vectors (.fs .one) 0b100100 = .ok .sFstart ∧
  decode Params.vectors (.fs .two) 0b011100 = .ok .sTfire ∧
  decode Params.vectors (.fs .three) (0b000111 + 256 * 0x01) = .ok (.sEmit 0x01) ∧
  decode Params.vectors (.fs .three) 0b000101 = .error .phaseDoesNothing ∧
  decode Params.vectors .fu 0b1000000 = .error .strayBits

/-- Decoding the encoding of any well-formed operation gives it back, with every operand: every sample of `W` bits, and every
configuration record that is legal and fits its fields, in the packed layouts of R83 and R99 (the spec's decision D12).
The derived widths are those of log 14, the place of the operand that of log 15. -/
def Obligations.DecodeOfEncodeIsIdentity : Prop :=
  ∀ (p : Params) (i : Instr), p.ok = true → i.wellFormed p = true → decode p i.place (encode p i) = .ok i

/-- The decoders agree with the columns match and mask of opcode_table.json on every selector word: a UART word selects exactly the
operation whose pattern it has (R89: the patterns are disjoint and cover all 64 words), an SPI word in each phase the
one of that phase whose pattern it has (R90), an EDGE word likewise (R88). The encodings are the spec's decision D11. -/
def Obligations.DecodersFollowMatchAndMask : Prop :=
  (∀ (w : BitVec 6) (o : UartOp),
    decodeFU w = o ↔ w &&& BitVec.ofNat 6 (o.instr 0).maskWord = BitVec.ofNat 6 (o.instr 0).matchWord) ∧
  (∀ (w : BitVec 6) (o : SpiOp) (ph : Phase),
    decodeFS ph w = some o ↔
      (o.instr 0).place = .fs ph ∧
        w &&& BitVec.ofNat 6 (o.instr 0).maskWord = BitVec.ofNat 6 (o.instr 0).matchWord) ∧
  (∀ (w : BitVec 1) (o : EdgeOp),
    decodeFE w = o ↔ w &&& BitVec.ofNat 1 (o.instr 0).maskWord = BitVec.ofNat 1 (o.instr 0).matchWord)

/-! ## The bus accessor and the port -/

/-- R110 and R111: `channel` of an index below `W` is that bit of the sample; `value` of a `W`-bit sample is the sample. -/
def Obligations.BusAccessorReadsBits : Prop :=
  ∀ (p : Params) (x : Word),
    (∀ c, c < p.w → channel p x c = some (decide ((x >>> c) % 2 = 1))) ∧ (x < 2 ^ p.w → value p x = x)

/-- R114: RESET with a legal record makes it the unit's configuration, gives the unit its reset state and presents nothing;
everything else is unchanged. The reset values are the spec's decisions D6, D7, D8 (R50, R51, R52), RESET as an operation
its decision D1; that the record must also fit its fields is log 8. -/
def Obligations.ResetConstructsTheUnit : Prop :=
  (∀ s : State, exec (.reset .edge) s = .next { s with edge := ⟨0⟩, edgeOut := none }) ∧
  (∀ (s : State) (c : UartCfg), c.legal s.par = true → c.fits s.par = true →
    exec (.reset (.uart c)) s =
      .next { s with uartCfg := c, uart := ⟨.idle, 0, 0, 0⟩, uartOut := none, uartEvent := none }) ∧
  (∀ (s : State) (c : SpiCfg), c.legal s.par = true → c.fits s.par = true →
    exec (.reset (.spi c)) s =
      .next { s with
        spiCfg := c, spi := ⟨0, 0, c.frameTimeout, c.clockPolarity, !c.frameActive⟩, spiOut := none })

/-- R8, R114: RESET refuses a record with a period of 0, a channel at or above `W`, more data bits than the register holds, or (SPI)
no data bits. The spec's decisions D5 and D28. -/
def Obligations.ResetRefusesIllegalRecords : Prop :=
  (∀ (s : State) (c : UartCfg), c.period = 0 ∨ s.par.w ≤ c.channel ∨ s.par.wordW < c.nbBits →
    exec (.reset (.uart c)) s = .refused (.illegalConfiguration .uart)) ∧
  (∀ (s : State) (c : SpiCfg),
    s.par.w ≤ c.clockChannel ∨ s.par.w ≤ c.dataChannel ∨ s.par.w ≤ c.frameChannel ∨ c.nbBits = 0 ∨
      s.par.wordW < c.nbBits →
    exec (.reset (.spi c)) s = .refused (.illegalConfiguration .spi))

/-- R115: a cycle with rst = 0 and tick_en = 0 changes no state and presents no output and no event of its unit. The spec's decisions D1
and D2. -/
def Obligations.IdleCycleChangesNothing : Prop :=
  ∀ s : State,
    exec (.idleCycle .edge) s = .next { s with edgeOut := none } ∧
    exec (.idleCycle .uart) s = .next { s with uartOut := none, uartEvent := none } ∧
    exec (.idleCycle .spi) s = .next { s with spiOut := none }

/-- R113: a TICK runs the operation (EDGE, UART) or the operations of the four phases in order (SPI) that the unit's selector word
selects, the selector word being computed from the state at the start of the tick. What the unit presented in the cycle before is
gone. The selector words are the spec's decision D11. -/
def Obligations.TickRunsTheSelectedOperations : Prop :=
  ∀ (s : State) (x : Word),
    exec (.tick .edge x) s =
      exec ((decodeFE (selFE s.par s.edge x)).instr x) { s with edgeOut := none } ∧
    (∀ w, selFU s.par s.uartCfg s.uart x = some w →
      exec (.tick .uart x) s = exec ((decodeFU w).instr x) { s with uartOut := none, uartEvent := none }) ∧
    (∀ w, selFS s.par s.spiCfg s.spi x = some w →
      exec (.tick .spi x) s =
        [Phase.one, .two, .three, .four].foldl
          (fun r ph => andThen r fun t =>
            match decodeFS ph w with
            | some o => exec (o.instr x) t
            | none => .next t)
          (.next { s with spiOut := none }))

/-- R113: a tick never fails: in every good state a TICK of any unit with any sample answers a next state, which is good again. Good
states are those of the invariants R33, R41, R42 with legal records. -/
def Obligations.TickCompletesInGoodStates : Prop :=
  ∀ (s : State) (u : UnitId) (x : Word), s.Good → ∃ t, exec (.tick u x) s = .next t ∧ t.Good

/-- A TICK of a unit whose record names a channel at or above `W` is refused. This is the model's choice, log 9 (DEDUCED): R112, U1 and the
spec's decision D5 give the missing bit no value and refuse such a record at RESET, and say nothing of a TICK. It covers every TICK under
such a record, also one that finds `skip > 0`, which by R141 does not look at the line. -/
def Obligations.TickRefusesMissingChannels : Prop :=
  ∀ (s : State) (x : Word),
    (s.par.w ≤ s.uartCfg.channel → exec (.tick .uart x) s = .refused .channelOutOfRange) ∧
    (s.par.w ≤ s.spiCfg.clockChannel ∨ s.par.w ≤ s.spiCfg.dataChannel ∨ s.par.w ≤ s.spiCfg.frameChannel →
      exec (.tick .spi x) s = .refused .channelOutOfRange)

/-- R112, R144, R158, R173: the operations, run on their own, are refused where they would read a missing channel or subtract 1 from 0, and
nowhere else: no value is given there. No run under a legal record gets there. The spec's decisions D5 and D28 and its entries U1, U3 and U11;
that a single operation refuses so is logs 9 and 10. -/
def Obligations.OperationsRefuseMissingValues : Prop :=
  (∀ s : State, exec .uSkip s = .refused .belowZero ↔ s.uart.skip = 0) ∧
  (∀ s : State, exec .uStart s = .refused .belowZero ↔ s.uartCfg.period = 0) ∧
  (∀ (s : State) (x : Word), exec (.uData x) s = .refused .channelOutOfRange ↔ s.par.w ≤ s.uartCfg.channel) ∧
  (∀ (s : State) (x : Word),
    exec (.uData x) s = .refused .belowZero ↔ s.uartCfg.channel < s.par.w ∧ s.uartCfg.period = 0) ∧
  (∀ s : State, exec .sTcount s = .refused .belowZero ↔ s.spi.countdown = 0) ∧
  (∀ (s : State) (x : Word),
    (exec (.sShift x) s = .refused .channelOutOfRange ↔ s.par.w ≤ s.spiCfg.dataChannel) ∧
    (exec (.sEmit x) s = .refused .channelOutOfRange ↔ s.par.w ≤ s.spiCfg.dataChannel) ∧
    (exec (.sLatch x) s = .refused .channelOutOfRange ↔
      s.par.w ≤ s.spiCfg.clockChannel ∨ s.par.w ≤ s.spiCfg.frameChannel))

/-! ## EDGE -/

/-- R131: E.HOLD is selected exactly when the sample equals the one before (after RESET, when it is 0, by R50, the spec's decision D6); it
writes `last_sample`, which leaves it as it was, and emits nothing. -/
def Obligations.EHoldKeepsTheSample : Prop :=
  ∀ (s : State) (x : Word), x < 2 ^ s.par.w →
    (decodeFE (selFE s.par s.edge x) = .hold ↔ x ^^^ s.edge.lastSample = 0) ∧
    (decodeFE (selFE s.par ⟨0⟩ x) = .hold ↔ x = 0) ∧
    exec (.eHold x) s = .next { s with edge := ⟨x⟩ } ∧
    (x = s.edge.lastSample → exec (.eHold x) s = .next s)

/-- R132: E.EMIT is selected exactly when the sample differs from the one before; it writes `last_sample` and emits the new sample. -/
def Obligations.EEmitEmitsTheNewSample : Prop :=
  ∀ (s : State) (x : Word), x < 2 ^ s.par.w →
    (decodeFE (selFE s.par s.edge x) = .emit ↔ x ^^^ s.edge.lastSample ≠ 0) ∧
    exec (.eEmit x) s = .next { s with edge := ⟨x⟩, edgeOut := some x }

/-- R133: the whole EDGE tick. -/
def Obligations.EdgeTickIsItsProcedure : Prop :=
  ∀ (s : State) (x : Word), x < 2 ^ s.par.w →
    exec (.tick .edge x) s =
      .next { s with edge := ⟨x⟩, edgeOut := if x ^^^ s.edge.lastSample ≠ 0 then some x else none }

/-- R135: the outputs of EDGE over a run are its input with every sample removed that equals the one before it. From any good state
(the rule starts at RESET, where the one before the first is 0, the spec's decision D6). -/
def Obligations.EdgeOutputsAreTheChanges : Prop :=
  ∀ (s : State) (xs : List Word) (rest : List Cycle),
    s.Good → s.wire.edge = .host → (∀ x ∈ xs, x < 2 ^ s.par.w) → s.input = edgeCycles xs ++ rest →
    outputs .edge xs.length s = changes s.edge.lastSample xs

/-- R134: `n` identical samples that differ from the one before them cause exactly one emission. -/
def Obligations.IdenticalSamplesEmitOnce : Prop :=
  ∀ (s : State) (b : Word) (n : Nat) (rest : List Cycle),
    s.Good → s.wire.edge = .host → b < 2 ^ s.par.w → b ≠ s.edge.lastSample → 1 ≤ n →
    s.input = edgeCycles (List.replicate n b) ++ rest →
    outputs .edge n s = [b]

/-! ## UART -/

/-- R144: U.SKIP is selected exactly when `skip > 0`, whatever the mode; it decrements `skip` and does nothing else. -/
def Obligations.USkipDecrementsSkip : Prop :=
  (∀ (c : UartCfg) (u : UartState) (i : Bool), decodeFU (fuWord c u i) = .skip ↔ u.skip > 0) ∧
  (∀ s : State, s.uart.skip > 0 →
    exec .uSkip s = .next { s with uart := { s.uart with skip := s.uart.skip - 1 } })

/-- R145: U.IDLE is selected in `Idle` with the line high; it changes nothing. -/
def Obligations.UIdleChangesNothing : Prop :=
  (∀ (c : UartCfg) (u : UartState) (i : Bool),
    decodeFU (fuWord c u i) = .idle ↔ u.skip = 0 ∧ u.mode = .idle ∧ i = true) ∧
  (∀ s : State, exec .uIdle s = .next s)

/-- R146: U.START is selected in `Idle` with the line low; it enters `Shift`, clears `bit` and `reg`, and loads `skip` with the start delay. -/
def Obligations.UStartBeginsAFrame : Prop :=
  (∀ (c : UartCfg) (u : UartState) (i : Bool),
    decodeFU (fuWord c u i) = .start ↔ u.skip = 0 ∧ u.mode = .idle ∧ i = false) ∧
  (∀ s : State, 1 ≤ s.uartCfg.period →
    exec .uStart s =
      .next { s with uart := { mode := .shift, reg := 0, bit := 0, skip := startDelay s.uartCfg.period } })

/-- R147: U.DATA is selected in `Shift` with fewer than `nb_bits` bits collected; it ORs the sampled bit into `reg` at index `bit`,
advances `bit` and loads `skip` with `period - 1`. The ORed bit lies inside the register: nothing is lost. -/
def Obligations.UDataCollectsOneBit : Prop :=
  (∀ (c : UartCfg) (u : UartState) (i : Bool),
    decodeFU (fuWord c u i) = .data ↔ u.skip = 0 ∧ u.mode = .shift ∧ u.bit < c.nbBits) ∧
  (∀ (s : State) (x : Word), s.uartCfg.legal s.par = true →
    exec (.uData x) s =
      .next { s with
        uart := { s.uart with
          reg := (s.uart.reg ||| ((x.testBit s.uartCfg.channel).toNat <<< s.uart.bit)) % 2 ^ s.par.wordW
          bit := s.uart.bit + 1
          skip := s.uartCfg.period - 1 } }) ∧
  (∀ (s : State) (i : Bool), s.uartCfg.legal s.par = true → s.uart.bit < s.uartCfg.nbBits →
    s.uart.reg < 2 ^ s.uart.bit →
    (s.uart.reg ||| (i.toNat <<< s.uart.bit)) % 2 ^ s.par.wordW = s.uart.reg + i.toNat * 2 ^ s.uart.bit)

/-- R148: U.STOP is selected in `Shift` with all bits collected and the line high; it emits `reg` and returns to `Idle`. That `reg`, `bit`
and `skip` keep their values is the spec's decision D21. Under R33 the word is below `2^nb_bits`. -/
def Obligations.UStopEmitsTheWord : Prop :=
  (∀ (c : UartCfg) (u : UartState) (i : Bool),
    decodeFU (fuWord c u i) = .stop ↔ u.skip = 0 ∧ u.mode = .shift ∧ ¬ u.bit < c.nbBits ∧ i = true) ∧
  (∀ s : State,
    exec .uStop s = .next { s with uart := { s.uart with mode := .idle }, uartOut := some s.uart.reg }) ∧
  (∀ (c : UartCfg) (u : UartState), UartInv c u → u.reg < 2 ^ c.nbBits)

/-- R149, R201, R206: U.BREAK is selected in `Shift` with all bits collected, the line low and `reg` zero; it enters `Break` and reports
the event, and changes nothing else. That it is an event is the spec's decision D10, that `reg`, `bit` and `skip` stay its decision D21. -/
def Obligations.UBreakDetectsABreak : Prop :=
  (∀ (c : UartCfg) (u : UartState) (i : Bool),
    decodeFU (fuWord c u i) = .brk ↔
      u.skip = 0 ∧ u.mode = .shift ∧ ¬ u.bit < c.nbBits ∧ i = false ∧ u.reg = 0) ∧
  (∀ s : State,
    exec .uBreak s = .next { s with uart := { s.uart with mode := .brk }, uartEvent := some .brk })

/-- R150, R202, R206: U.FERR is selected in `Shift` with all bits collected, the line low and `reg` not zero; it enters `FrameErr` and
reports the event, and changes nothing else: the word is not output. The spec's decisions D10 and D21, as for U.BREAK. -/
def Obligations.UFerrDetectsAFrameError : Prop :=
  (∀ (c : UartCfg) (u : UartState) (i : Bool),
    decodeFU (fuWord c u i) = .ferr ↔
      u.skip = 0 ∧ u.mode = .shift ∧ ¬ u.bit < c.nbBits ∧ i = false ∧ u.reg ≠ 0) ∧
  (∀ s : State,
    exec .uFerr s = .next { s with uart := { s.uart with mode := .frameErr }, uartEvent := some .frameErr })

/-- R151, R153: in `Break` and in `FrameErr` a low line keeps the unit waiting: U.BWAIT and U.FWAIT change nothing. -/
def Obligations.LowLineKeepsWaiting : Prop :=
  (∀ (c : UartCfg) (u : UartState) (i : Bool),
    (decodeFU (fuWord c u i) = .bwait ↔ u.skip = 0 ∧ u.mode = .brk ∧ i = false) ∧
    (decodeFU (fuWord c u i) = .fwait ↔ u.skip = 0 ∧ u.mode = .frameErr ∧ i = false)) ∧
  (∀ s : State, exec .uBwait s = .next s ∧ exec .uFwait s = .next s)

/-- R152, R154, R207: in `Break` and in `FrameErr` a high line ends the condition: U.BREC and U.FREC write `mode` and nothing else. -/
def Obligations.HighLineRecovers : Prop :=
  (∀ (c : UartCfg) (u : UartState) (i : Bool),
    (decodeFU (fuWord c u i) = .brec ↔ u.skip = 0 ∧ u.mode = .brk ∧ i = true) ∧
    (decodeFU (fuWord c u i) = .frec ↔ u.skip = 0 ∧ u.mode = .frameErr ∧ i = true)) ∧
  (∀ s : State,
    exec .uBrec s = .next { s with uart := { s.uart with mode := .idle } } ∧
    exec .uFrec s = .next { s with uart := { s.uart with mode := .idle } })

/-- The start delay: its formula and its values for periods 1 to 16 are R142; its values at 100, 257 and 1000 are the spec's derived vectors
(95_test_vectors.md section 2); its bounds are R143, which the spec derives from R142. -/
def Obligations.StartDelayValuesAndBounds : Prop :=
  [1, 2, 3, 4, 5, 6, 7, 8, 9, 10, 11, 12, 13, 14, 15, 16, 100, 257, 1000].map startDelay =
    [0, 1, 3, 5, 7, 8, 10, 12, 14, 15, 17, 19, 21, 22, 24, 26, 173, 448, 1748] ∧
  (∀ p, startDelay p = (p - 1) + (p - 1) / 2 + p / 4) ∧
  (∀ p, 1 ≤ p → p - 1 ≤ startDelay p ∧ startDelay p ≤ 2 * p - 2)

/-- R140 with the effects of R144 to R154: a UART tick, which goes through the selector word and the operation it selects, is the procedure
the spec writes, in every state with a legal record. That U.STOP, U.BREAK and U.FERR leave `reg`, `bit` and `skip` as they were is the
spec's decision D21, the events are its decision D10. -/
def Obligations.UartTickIsItsProcedure : Prop :=
  ∀ (s : State) (x : Word), s.uartCfg.legal s.par = true →
    exec (.tick .uart x) s =
      let r := uartProcedure s.par s.uartCfg s.uart (x.testBit s.uartCfg.channel)
      .next { s with uart := r.1, uartOut := r.2.1, uartEvent := r.2.2 }

/-- R141: the sampled bit is the only part of the sample the unit reads, and on a tick that finds `skip > 0` it reads nothing. -/
def Obligations.UartReadsOnlyItsChannel : Prop :=
  ∀ (s : State) (x y : Word),
    (x.testBit s.uartCfg.channel = y.testBit s.uartCfg.channel → exec (.tick .uart x) s = exec (.tick .uart y) s) ∧
    (s.uartCfg.channel < s.par.w → s.uart.skip > 0 → exec (.tick .uart x) s = exec (.tick .uart y) s)

/-- R155: the six edges of the mode, each with its operation; every other operation leaves the mode as it was. -/
def Obligations.ModeTransitionsAreTheSixEdges : Prop :=
  ∀ (s t : State) (x : Word) (w : BitVec 6),
    selFU s.par s.uartCfg s.uart x = some w → exec (.tick .uart x) s = .next t →
    (decodeFU w = .start ∧ s.uart.mode = .idle ∧ t.uart.mode = .shift) ∨
    (decodeFU w = .stop ∧ s.uart.mode = .shift ∧ t.uart.mode = .idle) ∨
    (decodeFU w = .brk ∧ s.uart.mode = .shift ∧ t.uart.mode = .brk) ∨
    (decodeFU w = .ferr ∧ s.uart.mode = .shift ∧ t.uart.mode = .frameErr) ∨
    (decodeFU w = .brec ∧ s.uart.mode = .brk ∧ t.uart.mode = .idle) ∨
    (decodeFU w = .frec ∧ s.uart.mode = .frameErr ∧ t.uart.mode = .idle) ∨
    (decodeFU w ∉ [.start, .stop, .brk, .ferr, .brec, .frec] ∧ t.uart.mode = s.uart.mode)

/-- R201, R202: `break` is raised by U.BREAK alone and `frame_err` by U.FERR alone (on their own or selected by a TICK). -/
def Obligations.EventsHaveOneSource : Prop :=
  ∀ (i : Instr) (s t : State) (e : Event), exec i s = .next t → t.uartEvent = some e → s.uartEvent ≠ some e →
    (e = .brk ∧ (i = .uBreak ∨ ∃ x w, i = .tick .uart x ∧ selFU s.par s.uartCfg s.uart x = some w ∧ decodeFU w = .brk)) ∨
    (e = .frameErr ∧
      (i = .uFerr ∨ ∃ x w, i = .tick .uart x ∧ selFU s.par s.uartCfg s.uart x = some w ∧ decodeFU w = .ferr))

/-- R205, R82, R116: a UART tick has one result: a word from U.STOP, a break from U.BREAK, a frame error from U.FERR, or nothing; the port
shows it and the new mode. The codes are the spec's decisions D3, D9, D10. -/
def Obligations.UartTickHasOneResult : Prop :=
  ∀ (s t : State) (x : Word) (w : BitVec 6),
    selFU s.par s.uartCfg s.uart x = some w → exec (.tick .uart x) s = .next t →
    (resultCode t = 1 ↔ decodeFU w = .stop) ∧ (resultCode t = 2 ↔ decodeFU w = .brk) ∧
    (resultCode t = 3 ↔ decodeFU w = .ferr) ∧
    (t.uartOut.isSome = true ↔ decodeFU w = .stop) ∧
    (brkPin t = true ↔ decodeFU w = .brk) ∧ (ferrPin t = true ↔ decodeFU w = .ferr) ∧
    (modePins t = 0b00#2 ↔ t.uart.mode = .idle) ∧ (modePins t = 0b01#2 ↔ t.uart.mode = .shift) ∧
    (modePins t = 0b10#2 ↔ t.uart.mode = .brk) ∧ (modePins t = 0b11#2 ↔ t.uart.mode = .frameErr)

/-- R156: where the samples fall. After the start tick the unit looks at the line for data bit `k` (for `k = nb_bits`, the stop bit) exactly
`start_delay(period) + 1 + k * period` ticks later, and skips every tick between, whatever the samples are. -/
def Obligations.UartSamplesAtTheStatedTicks : Prop :=
  ∀ (s : State) (x : Word) (xs : List Word) (rest : List Cycle),
    s.Good → s.wire.uart = .host → s.uart.mode = .idle → x.testBit s.uartCfg.channel = false →
    s.input = uartCycles (x :: xs) ++ rest →
    startDelay s.uartCfg.period + s.uartCfg.nbBits * s.uartCfg.period ≤ xs.length →
    (∀ k, k ≤ s.uartCfg.nbBits →
      ∃ t, after (1 + startDelay s.uartCfg.period + k * s.uartCfg.period) s = some t ∧
        t.uart.mode = .shift ∧ t.uart.bit = k ∧ t.uart.skip = 0) ∧
    (∀ n, n < startDelay s.uartCfg.period + s.uartCfg.nbBits * s.uartCfg.period →
      (∀ k, k ≤ s.uartCfg.nbBits → n ≠ startDelay s.uartCfg.period + k * s.uartCfg.period) →
      ∃ t, after (1 + n) s = some t ∧ t.uart.skip > 0)

/-- R157: the round trip. From any good state with the UART in `Idle`, the frames of a list of words (R96, back to back) give the words in
order and no event, for every period and every number of data bits. -/
def Obligations.UartDecodesWhatUframeEncodes : Prop :=
  ∀ (s : State) (ws : List Word) (rest : List Cycle),
    s.Good → s.wire.uart = .host → s.uart.mode = .idle → (∀ v ∈ ws, v < 2 ^ s.uartCfg.nbBits) →
    s.input = uartCycles (ws.flatMap (uframe s.uartCfg)) ++ rest →
    outputs .uart (ws.flatMap (uframe s.uartCfg)).length s = ws ∧
    events (ws.flatMap (uframe s.uartCfg)).length s = []

/-- R240: a line that is low from an `Idle` tick on, through the tick of the stop bit and as long after it as one likes, gives `break` once, no
word, and holds the unit in `Break`. The stop bit is sampled `start_delay(period) + 1 + nb_bits * period` ticks after that
`Idle` tick (R156; log 18). -/
def Obligations.LowLineBreaksOnce : Prop :=
  ∀ (s : State) (xs : List Word) (rest : List Cycle),
    s.Good → s.wire.uart = .host → s.uart.mode = .idle →
    (∀ x ∈ xs, x.testBit s.uartCfg.channel = false) →
    startDelay s.uartCfg.period + 2 + s.uartCfg.nbBits * s.uartCfg.period ≤ xs.length →
    s.input = uartCycles xs ++ rest →
    events xs.length s = [.brk] ∧ outputs .uart xs.length s = [] ∧
    ∃ t, after xs.length s = some t ∧ t.uart.mode = .brk

/-! ## SPI -/

/-- R172: S.FSTART is selected when gating is enabled and the frame bit is active now and was not on the tick before, else phase 1 does
nothing; it clears `reg` and `count` and nothing else. The formula of the frame start is the spec's decision D27. -/
def Obligations.SFstartClears : Prop :=
  (∀ (c : SpiCfg) (u : SpiState) (ck fr : Bool),
    decodeFS .one (fsWord c u ck fr) = some .fstart ↔
      c.frameEnable = true ∧ fr = c.frameActive ∧ u.lastFrame ≠ c.frameActive) ∧
  (∀ (c : SpiCfg) (u : SpiState) (ck fr : Bool),
    decodeFS .one (fsWord c u ck fr) = none ↔
      ¬ (c.frameEnable = true ∧ fr = c.frameActive ∧ u.lastFrame ≠ c.frameActive)) ∧
  (∀ s : State, exec .sFstart s = .next { s with spi := { s.spi with reg := 0, count := 0 } })

/-- R173: S.TCOUNT is selected when the timeout is active and `countdown` is not 1, which under R42 is at least 2; it decrements `countdown` and
nothing else. When the timeout is not active phase 2 does nothing. When the timeout is active is the spec's decision D22. -/
def Obligations.STcountDecrements : Prop :=
  (∀ (c : SpiCfg) (u : SpiState) (ck fr : Bool),
    (decodeFS .two (fsWord c u ck fr) = some .tcount ↔ SpiCfg.timeoutActive c ∧ u.countdown ≠ 1) ∧
    (decodeFS .two (fsWord c u ck fr) = none ↔ ¬ SpiCfg.timeoutActive c) ∧
    (SpiInv c u → decodeFS .two (fsWord c u ck fr) = some .tcount → 2 ≤ u.countdown)) ∧
  (∀ s : State, 1 ≤ s.spi.countdown →
    exec .sTcount s = .next { s with spi := { s.spi with countdown := s.spi.countdown - 1 } })

/-- R174: S.TFIRE is selected when the timeout is active and `countdown` is 1; it clears `reg` and `count`, reloads `countdown`, and does nothing
else. When the timeout is active and what it reloads are the spec's decision D22. -/
def Obligations.STfireClearsAndReloads : Prop :=
  (∀ (c : SpiCfg) (u : SpiState) (ck fr : Bool),
    decodeFS .two (fsWord c u ck fr) = some .tfire ↔ SpiCfg.timeoutActive c ∧ u.countdown = 1) ∧
  (∀ s : State,
    exec .sTfire s =
      .next { s with spi := { s.spi with reg := 0, count := 0, countdown := s.spiCfg.frameTimeout } })

/-- R175: S.SHIFT is selected when the gate is open, the sample makes a sampling edge and the word is not complete; it shifts the data bit in from
below and counts it. With the gate closed or without an edge phase 3 does nothing. Under R41 the shift loses no bit. The formula of the
sampling edge is the spec's decision D27. -/
def Obligations.SShiftShiftsTheDataBitIn : Prop :=
  (∀ (c : SpiCfg) (u : SpiState) (ck fr : Bool),
    decodeFS .three (fsWord c u ck fr) = some .shift ↔
      (c.frameEnable = false ∨ fr = c.frameActive) ∧ ck ≠ u.lastClock ∧ ck = c.clockEdge ∧
        countAfterClears c u fr + 1 ≠ c.nbBits) ∧
  (∀ (c : SpiCfg) (u : SpiState) (ck fr : Bool),
    decodeFS .three (fsWord c u ck fr) = none ↔
      ¬ ((c.frameEnable = false ∨ fr = c.frameActive) ∧ ck ≠ u.lastClock ∧ ck = c.clockEdge)) ∧
  (∀ (s : State) (x : Word), s.spiCfg.dataChannel < s.par.w →
    exec (.sShift x) s =
      .next { s with
        spi := { s.spi with
          reg := ((s.spi.reg <<< 1) ||| (x.testBit s.spiCfg.dataChannel).toNat) % 2 ^ s.par.wordW
          count := s.spi.count + 1 } }) ∧
  (∀ (s : State) (da : Bool), s.spiCfg.legal s.par = true → SpiInv s.spiCfg s.spi →
    ((s.spi.reg <<< 1) ||| da.toNat) % 2 ^ s.par.wordW = 2 * s.spi.reg + da.toNat)

/-- R176: S.EMIT is selected when the gate is open, the sample makes a sampling edge and the word completes; it emits the shifted word, clears
`reg` and `count` and reloads `countdown`, active or not. The word is below `2^nb_bits`. The reload is the spec's decisions D22 and D23, the
formula of the sampling edge its decision D27. -/
def Obligations.SEmitEmitsTheWord : Prop :=
  (∀ (c : SpiCfg) (u : SpiState) (ck fr : Bool),
    decodeFS .three (fsWord c u ck fr) = some .emit ↔
      (c.frameEnable = false ∨ fr = c.frameActive) ∧ ck ≠ u.lastClock ∧ ck = c.clockEdge ∧
        countAfterClears c u fr + 1 = c.nbBits) ∧
  (∀ (s : State) (x : Word), s.spiCfg.dataChannel < s.par.w →
    exec (.sEmit x) s =
      .next { s with
        spi := { s.spi with reg := 0, count := 0, countdown := s.spiCfg.frameTimeout }
        spiOut := some (((s.spi.reg <<< 1) ||| (x.testBit s.spiCfg.dataChannel).toNat) % 2 ^ s.par.wordW) }) ∧
  (∀ (c : SpiCfg) (reg count : Nat) (da : Bool), reg < 2 ^ count → count + 1 = c.nbBits →
    (reg <<< 1) ||| da.toNat < 2 ^ c.nbBits)

/-- R177, R39, R40: S.LATCH is selected on every tick; it stores the clock and the frame bit of the sample and nothing else. -/
def Obligations.SLatchStoresTheLevels : Prop :=
  (∀ w : BitVec 6, decodeFS .four w = some .latch) ∧
  (∀ (s : State) (x : Word), s.spiCfg.clockChannel < s.par.w → s.spiCfg.frameChannel < s.par.w →
    exec (.sLatch x) s =
      .next { s with
        spi := { s.spi with
          lastClock := x.testBit s.spiCfg.clockChannel
          lastFrame := x.testBit s.spiCfg.frameChannel } })

/-- R178, R170: the phase-by-phase operations, all selected from the state at the start of the tick, and the sequential procedure the spec
writes, which tests as it goes, are the same function on every state that satisfies R41 and R42. The premise `SpiInv` also asks
`countdown <= frame_timeout` while the timeout is not active, where R42 asks nothing; it holds in every state a run from RESET reaches. When the
timeout is active and what reloads it are the spec's decisions D22 and D23, the formulas of the edges its decision D27. -/
def Obligations.SpiTickIsItsProcedure : Prop :=
  ∀ (s : State) (x : Word), s.spiCfg.legal s.par = true → SpiInv s.spiCfg s.spi →
    exec (.tick .spi x) s =
      let r := spiProcedure s.par s.spiCfg s.spi (x.testBit s.spiCfg.clockChannel)
        (x.testBit s.spiCfg.frameChannel) (x.testBit s.spiCfg.dataChannel)
      .next { s with spi := r.1, spiOut := r.2 }

/-- R171: an SPI tick reads the clock, the frame and the data bit of the sample and nothing else. -/
def Obligations.SpiReadsOnlyItsChannels : Prop :=
  ∀ (s : State) (x y : Word),
    x.testBit s.spiCfg.clockChannel = y.testBit s.spiCfg.clockChannel →
    x.testBit s.spiCfg.frameChannel = y.testBit s.spiCfg.frameChannel →
    x.testBit s.spiCfg.dataChannel = y.testBit s.spiCfg.dataChannel →
    exec (.tick .spi x) s = exec (.tick .spi y) s

/-- R180: no operation but RESET reads `clock_polarity`: with another polarity in the record it does the same. The spec's decision D8. -/
def Obligations.PolarityIsReadByResetAlone : Prop :=
  ∀ (i : Instr) (s t : State) (b : Bool), (∀ c, i ≠ .reset c) → exec i s = .next t →
    exec i { s with spiCfg := { s.spiCfg with clockPolarity := b } } =
      .next { t with spiCfg := { t.spiCfg with clockPolarity := b } }

/-- R181: with chip-select framing disabled and the timeout not active, the number of words an SPI unit emits is the number of sampling edges
(and of bits pending before) divided by `nb_bits`, rounded down. -/
def Obligations.SpiWordsAreEdgesOverBits : Prop :=
  ∀ (s : State) (xs : List Word) (rest : List Cycle),
    s.Good → s.wire.spi = .host → s.spiCfg.frameEnable = false → ¬ SpiCfg.timeoutActive s.spiCfg →
    s.input = spiCycles xs ++ rest →
    (outputs .spi xs.length s).length =
      (s.spi.count + edgeCount s.spiCfg s.spi.lastClock xs) / s.spiCfg.nbBits

/-- R63 (c), R98: the samples of `SWORD v fr` with the gate open, no bit pending and the timeout not active give the word `v`: most significant
bit first. The three channels are distinct, so that a level on one does not show on another (log 22). The pseudo-operation is the spec's
decision D13. -/
def Obligations.SpiDecodesWhatSwordEncodes : Prop :=
  ∀ (s : State) (v : Word) (fr : Bool) (rest : List Cycle),
    s.Good → s.wire.spi = .host → (s.spiCfg.frameEnable = false ∨ fr = s.spiCfg.frameActive) →
    ¬ SpiCfg.timeoutActive s.spiCfg → s.spi.count = 0 →
    s.spiCfg.clockChannel ≠ s.spiCfg.dataChannel → s.spiCfg.clockChannel ≠ s.spiCfg.frameChannel →
    s.spiCfg.dataChannel ≠ s.spiCfg.frameChannel → v < 2 ^ s.spiCfg.nbBits →
    s.input = spiCycles (sword s.spiCfg v fr) ++ rest →
    outputs .spi (sword s.spiCfg v fr).length s = [v]

/-! ## The block -/

/-- R100, R115, R118: what a unit performs in a cycle: RESET where its rst is 1 (rst wins over tick_en), else TICK where its tick_en is 1, else
nothing. A unit fed by the host has the host's tick_en and sample; a chained unit ticks exactly when its source has emitted in
this cycle, on the value emitted. The port is the spec's decisions D1, D2, chaining its decision D24. -/
def Obligations.PinsSelectTheOperation : Prop :=
  ∀ (c : Cycle) (u : UnitId) (s : State),
    (∀ k, c.rst u = some k → fetch c u s = .reset k) ∧
    (c.rst u = none → s.wire.source u = .host →
      (∀ x, c.hostTick u = some x → fetch c u s = .tick u x) ∧
      (c.hostTick u = none → fetch c u s = .idleCycle u)) ∧
    (∀ v, c.rst u = none → s.wire.source u = .unit v →
      (∀ y, s.out v = some y → fetch c u s = .tick u y) ∧
      (s.out v = none → fetch c u s = .idleCycle u))

/-- A step runs the decoded operations: it takes the host's next cycle and runs, for each of the three units once, the operation that unit's pins
select, each unit after the one that feeds it; connections that are not legal are refused. The order within a cycle and the refusal are
log 13, one step as one cycle of the block log 1, an exhausted input as an idle cycle log 3; that a refusal of one unit's operation is that of
the whole step is log 21. -/
def Obligations.StepRunsEachUnitsOperation : Prop :=
  ∀ s : State,
    (s.wire.legal s.par = true →
      ∃ a b d : UnitId, [a, b, d] ∈ unitOrders ∧ s.wire.respects [] [a, b, d] = true ∧
        step s =
          let c := s.input.headD Cycle.idle
          let s0 : State := { s with input := s.input.tail }
          andThen (exec (fetch c a s0) s0) fun s1 =>
            andThen (exec (fetch c b s1) s1) fun s2 => exec (fetch c d s2) s2) ∧
    (s.wire.legal s.par = false → step s = .refused .illegalWiring)

/-- The state right after RESET of the units: the reset values of R50, R51 and R52, which are the spec's decisions D6, D7 and D8 (mode and skip of
the UART are forced by logan §8). No output is presented. The records, the parameters, the connections and the empty input are logs 5, 6, 13
and 3; nothing is said of them here but that the SPI fields follow the record. -/
def Obligations.ResetLeavesTheStatedValues : Prop :=
  State.reset.edge = ⟨0⟩ ∧ State.reset.uart = ⟨.idle, 0, 0, 0⟩ ∧
  State.reset.spi =
    ⟨0, 0, State.reset.spiCfg.frameTimeout, State.reset.spiCfg.clockPolarity, !State.reset.spiCfg.frameActive⟩ ∧
  State.reset.edgeOut = none ∧ State.reset.uartOut = none ∧ State.reset.uartEvent = none ∧
  State.reset.spiOut = none

/-- The state after reset is good: the invariants of R33, R41 and R42 hold there. That its parameters, records and connections are legal and
fit is the model's choice of them, logs 5, 6 and 13 (DESIGN CHOICE): the spec gives them no reset value (R53). The reset values of the
state records are the spec's decisions D6, D7 and D8. -/
def Obligations.ResetStateIsGood : Prop := State.reset.Good

/-- R33, R41, R42: every step from a good state that answers a next state keeps it good. -/
def Obligations.StepKeepsStatesGood : Prop := ∀ s t : State, s.Good → step s = .next t → t.Good

/-- R113, R119: the block never fails, traps or blocks: a step from a good state answers a good next state, unless the cycle holds a RESET with a
record that RESET refuses; that such a RESET of one unit refuses the whole cycle is log 21. -/
def Obligations.StepNeverBlocks : Prop :=
  ∀ s : State, s.Good → (s.input.headD Cycle.idle).resetsAccepted s.par → ∃ t, step s = .next t ∧ t.Good

/-- R6, R7, R158, R182: in a good state every register fits the width the spec gives it, so a model over naturals and one over registers of these
widths agree. `CNT_W` is the one of log 14. -/
def Obligations.RegistersFitTheirWidths : Prop :=
  ∀ s : State, s.Good →
    s.uart.reg < 2 ^ s.par.wordW ∧ s.uart.bit < 2 ^ s.par.cntW ∧ s.uart.skip < 2 ^ s.par.skipW ∧
    s.spi.reg < 2 ^ s.par.wordW ∧ s.spi.count < 2 ^ s.par.cntW ∧ s.spi.countdown < 2 ^ s.par.toW

/-- R62, R63: a word that a tick emits is below `2^W` (EDGE) or `2^nb_bits` (UART, SPI): the output bits at and above index `nb_bits` are 0. -/
def Obligations.EmittedWordsFit : Prop :=
  ∀ (s t : State) (u : UnitId) (x v : Word), s.Good → exec (.tick u x) s = .next t → t.out u = some v →
    match u with
    | .edge => v < 2 ^ s.par.w
    | .uart => v < 2 ^ s.uartCfg.nbBits
    | .spi => v < 2 ^ s.spiCfg.nbBits

/-- R20, R69, R232: a configuration record changes only by RESET of its unit, and no step changes the parameters or the connections. -/
def Obligations.OnlyResetChangesConfiguration : Prop :=
  (∀ (i : Instr) (s t : State), exec i s = .next t →
    (t.uartCfg = s.uartCfg ∨ i = .reset (.uart t.uartCfg)) ∧
    (t.spiCfg = s.spiCfg ∨ i = .reset (.spi t.spiCfg))) ∧
  (∀ s t : State, step s = .next t → t.par = s.par ∧ t.wire = s.wire)

/-- R70: units share no state. An operation changes no other unit's record, configuration or outputs, and neither the parameters nor the
connections nor the input; and what it does to its own unit depends on that unit alone. -/
def Obligations.UnitsDoNotInteract : Prop :=
  (∀ (i : Instr) (s t : State), exec i s = .next t →
    (∀ u, u ≠ opUnit i → sameFor u s t) ∧ t.par = s.par ∧ t.wire = s.wire ∧ t.input = s.input) ∧
  (∀ (i : Instr) (s s' t : State), sameFor (opUnit i) s s' → exec i s = .next t →
    ∃ t', exec i s' = .next t' ∧ sameFor (opUnit i) t t') ∧
  (∀ (i : Instr) (s s' : State) (r : Refusal), sameFor (opUnit i) s s' → exec i s = .refused r →
    exec i s' = .refused r)

/-- R119, R213: when the host supplies nothing more, every unit keeps its state and presents nothing, for as long as one likes: there is no flush.
That the block then runs idle cycles is log 3. -/
def Obligations.ExhaustedInputHoldsTheState : Prop :=
  ∀ (s : State) (n : Nat), s.wire.legal s.par = true → s.input = [] →
    after (n + 1) s = some { s with edgeOut := none, uartOut := none, uartEvent := none, spiOut := none }

/-- R118: with EDGE chained in front of SPI the SPI output stream is the one the SPI unit gives unfiltered, from RESET of both, when the timeout is
not active and either the first sample is not zero or `clock_polarity` is 0. The reset values are the spec's decisions D6 and D8, chaining its
decision D24. -/
def Obligations.EdgeFilterIsTransparentToSpi : Prop :=
  ∀ (s t : State) (xs : List Word) (rest rest' : List Cycle),
    s.Good → t.Good → s.par = t.par → s.spiCfg = t.spiCfg →
    s.wire = ⟨.host, .host, .unit .edge⟩ → t.wire = Wiring.unchained →
    s.edge = EdgeState.reset → s.spi = SpiState.reset s.spiCfg → t.spi = SpiState.reset t.spiCfg →
    ¬ SpiCfg.timeoutActive s.spiCfg → (∀ x ∈ xs, x < 2 ^ s.par.w) →
    (xs.head? ≠ some 0 ∨ s.spiCfg.clockPolarity = false) →
    s.input = edgeCycles xs ++ rest → t.input = spiCycles xs ++ rest' →
    outputs .spi xs.length s = outputs .spi xs.length t
end

