-- ==== Sys2Proof/Laws/State.lean ====
section
/-! SUPPORT. One lemma for each field of each state update, so that no proof unfolds a record update. -/

namespace Sys2Proof.Machine

section Updates

variable (s : State) (u : UartState) (v : SpiState) (m : UMode) (e : Event) (c : Cycle)

@[simp] theorem withUart_par : (s.withUart u).par = s.par := rfl
@[simp] theorem withUart_wire : (s.withUart u).wire = s.wire := rfl
@[simp] theorem withUart_edge : (s.withUart u).edge = s.edge := rfl
@[simp] theorem withUart_uartCfg : (s.withUart u).uartCfg = s.uartCfg := rfl
@[simp] theorem withUart_uart : (s.withUart u).uart = u := rfl
@[simp] theorem withUart_spiCfg : (s.withUart u).spiCfg = s.spiCfg := rfl
@[simp] theorem withUart_spi : (s.withUart u).spi = s.spi := rfl
@[simp] theorem withUart_edgeOut : (s.withUart u).edgeOut = s.edgeOut := rfl
@[simp] theorem withUart_uartOut : (s.withUart u).uartOut = s.uartOut := rfl
@[simp] theorem withUart_uartEvent : (s.withUart u).uartEvent = s.uartEvent := rfl
@[simp] theorem withUart_spiOut : (s.withUart u).spiOut = s.spiOut := rfl
@[simp] theorem withUart_input : (s.withUart u).input = s.input := rfl

@[simp] theorem withSpi_par : (s.withSpi v).par = s.par := rfl
@[simp] theorem withSpi_wire : (s.withSpi v).wire = s.wire := rfl
@[simp] theorem withSpi_edge : (s.withSpi v).edge = s.edge := rfl
@[simp] theorem withSpi_uartCfg : (s.withSpi v).uartCfg = s.uartCfg := rfl
@[simp] theorem withSpi_uart : (s.withSpi v).uart = s.uart := rfl
@[simp] theorem withSpi_spiCfg : (s.withSpi v).spiCfg = s.spiCfg := rfl
@[simp] theorem withSpi_spi : (s.withSpi v).spi = v := rfl
@[simp] theorem withSpi_edgeOut : (s.withSpi v).edgeOut = s.edgeOut := rfl
@[simp] theorem withSpi_uartOut : (s.withSpi v).uartOut = s.uartOut := rfl
@[simp] theorem withSpi_uartEvent : (s.withSpi v).uartEvent = s.uartEvent := rfl
@[simp] theorem withSpi_spiOut : (s.withSpi v).spiOut = s.spiOut := rfl
@[simp] theorem withSpi_input : (s.withSpi v).input = s.input := rfl

theorem withMode_eq : s.withMode m = s.withUart { s.uart with mode := m } := rfl

theorem raiseCondition_eq :
    raiseCondition e s = { s with uart := { s.uart with mode := e.mode }, uartEvent := some e } := rfl

theorem recoverIdle_eq : recoverIdle s = { s with uart := { s.uart with mode := .idle } } := rfl

theorem clearOut_edge : s.clearOut .edge = { s with edgeOut := none } := rfl

theorem clearOut_uart : s.clearOut .uart = { s with uartOut := none, uartEvent := none } := rfl

theorem clearOut_spi : s.clearOut .spi = { s with spiOut := none } := rfl

@[simp] theorem clearOut_par (w : UnitId) : (s.clearOut w).par = s.par := by cases w <;> rfl
@[simp] theorem clearOut_wire (w : UnitId) : (s.clearOut w).wire = s.wire := by cases w <;> rfl
@[simp] theorem clearOut_edgeState (w : UnitId) : (s.clearOut w).edge = s.edge := by cases w <;> rfl
@[simp] theorem clearOut_uartCfg (w : UnitId) : (s.clearOut w).uartCfg = s.uartCfg := by cases w <;> rfl
@[simp] theorem clearOut_uartState (w : UnitId) : (s.clearOut w).uart = s.uart := by cases w <;> rfl
@[simp] theorem clearOut_spiCfg (w : UnitId) : (s.clearOut w).spiCfg = s.spiCfg := by cases w <;> rfl
@[simp] theorem clearOut_spiState (w : UnitId) : (s.clearOut w).spi = s.spi := by cases w <;> rfl
@[simp] theorem clearOut_input (w : UnitId) : (s.clearOut w).input = s.input := by cases w <;> rfl

@[simp] theorem out_clearOut_self (w : UnitId) : (s.clearOut w).out w = none := by cases w <;> rfl

@[simp] theorem supply_input : (s.supply c).input = c :: s.input := rfl
@[simp] theorem supply_wire : (s.supply c).wire = Wiring.unchained := rfl

@[simp] theorem dropCycle_input : (dropCycle s).input = s.input.tail := rfl
@[simp] theorem dropCycle_par : (dropCycle s).par = s.par := rfl
@[simp] theorem dropCycle_wire : (dropCycle s).wire = s.wire := rfl

@[simp] theorem clearShift_reg : v.clearShift.reg = 0 := rfl
@[simp] theorem clearShift_count : v.clearShift.count = 0 := rfl
@[simp] theorem clearShift_countdown : v.clearShift.countdown = v.countdown := rfl
@[simp] theorem clearShift_lastClock : v.clearShift.lastClock = v.lastClock := rfl
@[simp] theorem clearShift_lastFrame : v.clearShift.lastFrame = v.lastFrame := rfl

@[simp] theorem reload_reg (d : SpiCfg) : (v.reload d).reg = v.reg := rfl
@[simp] theorem reload_count (d : SpiCfg) : (v.reload d).count = v.count := rfl
@[simp] theorem reload_countdown (d : SpiCfg) : (v.reload d).countdown = d.frameTimeout := rfl
@[simp] theorem reload_lastClock (d : SpiCfg) : (v.reload d).lastClock = v.lastClock := rfl
@[simp] theorem reload_lastFrame (d : SpiCfg) : (v.reload d).lastFrame = v.lastFrame := rfl

end Updates

end Sys2Proof.Machine
end

