-- ==== Sys2Proof/Laws/Ops.lean ====
section
/-! SUPPORT. What each shared operation can do, said once: sequencing, the accessor, the decrement, the shift registers, and
packing fields. -/

namespace Sys2Proof

theorem trunc_of_lt {n : Nat} {v : Word} (h : v < 2 ^ n) : trunc n v = v := Nat.mod_eq_of_lt h

theorem trunc_lt (n : Nat) (v : Word) : trunc n v < 2 ^ n := Nat.mod_lt _ (Nat.two_pow_pos n)

theorem lowField_packField {n v : Nat} (rest : Nat) (h : v < 2 ^ n) : lowField n (packField n v rest) = v := by
  simp [lowField, packField, Nat.add_mul_mod_self_left, Nat.mod_eq_of_lt h]

theorem restFields_packField {n v : Nat} (rest : Nat) (h : v < 2 ^ n) :
    restFields n (packField n v rest) = rest := by
  simp [restFields, packField, Nat.add_mul_div_left _ _ (Nat.two_pow_pos n), Nat.div_eq_of_lt h]

theorem packField_lt {n m v rest : Nat} (h : v < 2 ^ n) (hr : rest < 2 ^ m) : packField n v rest < 2 ^ (n + m) := by
  have h1 : 2 ^ n * (rest + 1) ≤ 2 ^ n * 2 ^ m := Nat.mul_le_mul_left _ hr
  rw [Nat.pow_add]
  unfold packField
  rw [Nat.mul_add] at h1
  omega

/-- A channel index below `W` fits its field. -/
theorem Params.lt_chW {p : Params} {c : Nat} (h : c < p.w) : c < 2 ^ p.chW :=
  lt_of_le_of_lt (Nat.le_sub_one_of_lt h) Nat.lt_log2_self

/-- A bit count up to `WORD_W` fits its field. -/
theorem Params.lt_cntW {p : Params} {n : Nat} (h : n ≤ p.wordW) : n < 2 ^ p.cntW :=
  lt_of_le_of_lt h Nat.lt_log2_self

end Sys2Proof

namespace Sys2Proof.Machine

@[simp] theorem andThen_next (s : State) (f : State → Result) : andThen (.next s) f = f s := rfl

@[simp] theorem andThen_refused (r : Refusal) (f : State → Result) : andThen (.refused r) f = .refused r := rfl

/-- A sequence answers a next state exactly when both parts do. -/
theorem andThen_eq_next {r : Result} {f : State → Result} {t : State} :
    andThen r f = .next t ↔ ∃ s, r = .next s ∧ f s = .next t := by
  cases r <;> simp [andThen]

/-- Sequencing is associative, so the phases of a tick may be grouped either way. -/
theorem andThen_assoc (r : Result) (f g : State → Result) :
    andThen (andThen r f) g = andThen r fun s => andThen (f s) g := by
  cases r <;> rfl

@[simp] theorem withValue_some {α : Type} (a : α) (why : Refusal) (f : α → Result) :
    withValue (some a) why f = f a := rfl

@[simp] theorem withValue_none {α : Type} (why : Refusal) (f : α → Result) :
    withValue none why f = .refused why := rfl

/-- An operation on a value that may be missing answers a next state exactly when the value is there and the operation does. -/
theorem withValue_eq_next {α : Type} {v : Option α} {why : Refusal} {f : α → Result} {t : State} :
    withValue v why f = .next t ↔ ∃ a, v = some a ∧ f a = .next t := by
  cases v <;> simp [withValue]

theorem channel_of_lt {p : Params} {c : Nat} (x : Word) (h : c < p.w) : channel p x c = some (x.testBit c) :=
  if_pos h

theorem channel_of_le {p : Params} {c : Nat} (x : Word) (h : p.w ≤ c) : channel p x c = none :=
  if_neg (Nat.not_lt.mpr h)

theorem channel_eq_some {p : Params} {x : Word} {c : Nat} {b : Bool} (h : channel p x c = some b) :
    c < p.w ∧ b = x.testBit c := by
  unfold channel at h
  split at h
  · exact ⟨‹_›, (Option.some.inj h).symm⟩
  · exact absurd h (by simp)

/-- An operation on a bit of the sample answers a next state exactly when the channel is in range and the operation on that
bit does. -/
theorem withChannel_eq_next {p : Params} {x : Word} {c : Nat} {why : Refusal} {f : Bool → Result} {t : State} :
    withValue (channel p x c) why f = .next t ↔ c < p.w ∧ f (x.testBit c) = .next t := by
  unfold channel
  split <;> simp [*]

theorem value_lt (p : Params) (x : Word) : value p x < 2 ^ p.w := trunc_lt _ _

@[simp] theorem natPred_zero : natPred 0 = none := rfl

theorem natPred_eq_some {n k : Nat} : natPred n = some k ↔ n = k + 1 := by
  cases n <;> simp [natPred]

theorem natPred_of_pos {n : Nat} (h : 1 ≤ n) : natPred n = some (n - 1) := by
  cases n with
  | zero => omega
  | succ k => rfl

theorem startSkip_of_pos {c : UartCfg} (h : 1 ≤ c.period) : startSkip c = some (startDelay c.period) := by
  simp [startSkip, natPred_of_pos h]

theorem dataSkip_of_pos {c : UartCfg} (h : 1 ≤ c.period) : dataSkip c = some (c.period - 1) := natPred_of_pos h

theorem orBit_lt (p : Params) (reg : Word) (i : Bool) (bit : Nat) : orBit p reg i bit < 2 ^ p.wordW := trunc_lt _ _

theorem shiftIn_lt (p : Params) (reg : Word) (da : Bool) : shiftIn p reg da < 2 ^ p.wordW := trunc_lt _ _

/-- ORing a bit in at the index just above a register's bits keeps it below the next power of two. -/
theorem orBit_lt_succ {p : Params} {reg : Word} {bit : Nat} (i : Bool) (h : reg < 2 ^ bit) :
    orBit p reg i bit < 2 ^ (bit + 1) := by
  refine Nat.lt_of_le_of_lt (Nat.mod_le _ _) (Nat.or_lt_two_pow ?_ ?_)
  · exact Nat.lt_trans h (Nat.pow_lt_pow_right (by omega) (by omega))
  · cases i <;> simp [Nat.shiftLeft_eq, Nat.pow_lt_pow_right]

/-- Shifting a bit in from below keeps a register below the next power of two. -/
theorem shiftIn_lt_succ {p : Params} {reg : Word} {count : Nat} (da : Bool) (h : reg < 2 ^ count) :
    shiftIn p reg da < 2 ^ (count + 1) := by
  refine Nat.lt_of_le_of_lt (Nat.mod_le _ _) (Nat.or_lt_two_pow ?_ ?_)
  · rw [Nat.shiftLeft_eq, pow_one, pow_succ]
    exact Nat.mul_lt_mul_of_pos_right h (by decide)
  · have h2 : 1 < 2 ^ (count + 1) := Nat.one_lt_two_pow (by omega)
    cases da <;> simp

end Sys2Proof.Machine
end

