-- ==== Sys2Proof/Laws/Flags.lean ====
section
/-! SUPPORT. The selector words: the bits of a word built from its tests, and which operation each word selects, in terms of
the tests of R86 and R87. -/

namespace Sys2Proof.Machine

section Bits

variable (b5 b4 b3 b2 b1 b0 : Bool)

theorem bits6_5 : (bits6 b5 b4 b3 b2 b1 b0).getLsbD 5 = b5 := by revert b5 b4 b3 b2 b1 b0; decide
theorem bits6_4 : (bits6 b5 b4 b3 b2 b1 b0).getLsbD 4 = b4 := by revert b5 b4 b3 b2 b1 b0; decide
theorem bits6_3 : (bits6 b5 b4 b3 b2 b1 b0).getLsbD 3 = b3 := by revert b5 b4 b3 b2 b1 b0; decide
theorem bits6_2 : (bits6 b5 b4 b3 b2 b1 b0).getLsbD 2 = b2 := by revert b5 b4 b3 b2 b1 b0; decide
theorem bits6_1 : (bits6 b5 b4 b3 b2 b1 b0).getLsbD 1 = b1 := by revert b5 b4 b3 b2 b1 b0; decide
theorem bits6_0 : (bits6 b5 b4 b3 b2 b1 b0).getLsbD 0 = b0 := by revert b5 b4 b3 b2 b1 b0; decide

end Bits

/-- EDGE's selector word selects E.EMIT exactly when its bit `d` is 1. -/
theorem decodeFE_selFE (p : Params) (s : EdgeState) (x : Word) :
    decodeFE (selFE p s x) = if flagD p s x then .emit else .hold := by
  cases h : flagD p s x <;> simp [selFE, h, decodeFE]

/-- Which operation a UART state and a sampled bit select, in the order of the tests of R140. -/
theorem decodeFU_fuWord (c : UartCfg) (u : UartState) (i : Bool) :
    decodeFU (fuWord c u i) =
      if flagS u then .skip
      else match u.mode with
        | .idle => if i then .idle else .start
        | .shift => if flagC c u then .data else if i then .stop else if flagRegZero u then .brk else .ferr
        | .brk => if i then .brec else .bwait
        | .frameErr => if i then .frec else .fwait := by
  unfold fuWord decodeFU
  simp only [bits6_0, bits6_1, bits6_2, bits6_3, bits6_4, bits6_5]
  cases u.mode <;> rfl

theorem decodeFS_one (c : SpiCfg) (u : SpiState) (ck fr : Bool) :
    decodeFS .one (fsWord c u ck fr) = if flagA c u fr then some .fstart else none := by
  simp only [fsWord, decodeFS, bits6_5]

theorem decodeFS_two (c : SpiCfg) (u : SpiState) (ck fr : Bool) :
    decodeFS .two (fsWord c u ck fr) =
      if flagT c then (if flagExpiring u then some .tfire else some .tcount) else none := by
  simp only [fsWord, decodeFS, bits6_4, bits6_3]

theorem decodeFS_three (c : SpiCfg) (u : SpiState) (ck fr : Bool) :
    decodeFS .three (fsWord c u ck fr) =
      if flagG c fr && flagE c u ck then (if flagF c u fr then some .emit else some .shift) else none := by
  simp only [fsWord, decodeFS, bits6_2, bits6_1, bits6_0]

@[simp] theorem decodeFS_four (w : BitVec 6) : decodeFS .four w = some .latch := rfl

/-- The selector word of a UART tick is there exactly when its channel is in range. -/
theorem selFU_of_lt {p : Params} {c : UartCfg} (u : UartState) (x : Word) (h : c.channel < p.w) :
    selFU p c u x = some (fuWord c u (x.testBit c.channel)) := by
  simp [selFU, channel_of_lt x h]

theorem selFU_eq_some {p : Params} {c : UartCfg} {u : UartState} {x : Word} {w : BitVec 6}
    (h : selFU p c u x = some w) : c.channel < p.w ∧ w = fuWord c u (x.testBit c.channel) := by
  unfold selFU at h
  obtain ⟨b, hb, rfl⟩ := Option.map_eq_some_iff.mp h
  obtain ⟨hc, rfl⟩ := channel_eq_some hb
  exact ⟨hc, rfl⟩

/-- The selector word of an SPI tick is there when its three channels are in range. -/
theorem selFS_of_lt {p : Params} {c : SpiCfg} (u : SpiState) (x : Word) (hk : c.clockChannel < p.w)
    (hd : c.dataChannel < p.w) (hf : c.frameChannel < p.w) :
    selFS p c u x = some (fsWord c u (x.testBit c.clockChannel) (x.testBit c.frameChannel)) := by
  simp [selFS, channel_of_lt x hk, channel_of_lt x hd, channel_of_lt x hf]

end Sys2Proof.Machine
end

