-- ==== Sys2Proof/Laws/Exec.lean ====
section
/-! SUPPORT. The dispatch in terms of the meanings: one equation for each operation, and the operations a tick runs as
`exec` of the instructions they are. -/

namespace Sys2Proof.Machine

section Arms

variable (s : State) (x : Word)

@[simp] theorem exec_reset (c : UnitCfg) : exec (.reset c) s = execReset c s := rfl
@[simp] theorem exec_tick (u : UnitId) : exec (.tick u x) s = execTick u x s := rfl
@[simp] theorem exec_idleCycle (u : UnitId) : exec (.idleCycle u) s = .next (s.clearOut u) := rfl
@[simp] theorem exec_eHold : exec (.eHold x) s = execEHold x s := rfl
@[simp] theorem exec_eEmit : exec (.eEmit x) s = execEEmit x s := rfl
@[simp] theorem exec_uSkip : exec .uSkip s = execUSkip s := rfl
@[simp] theorem exec_uIdle : exec .uIdle s = .next s := rfl
@[simp] theorem exec_uStart : exec .uStart s = execUStart s := rfl
@[simp] theorem exec_uData : exec (.uData x) s = execUData x s := rfl
@[simp] theorem exec_uStop : exec .uStop s = execUStop s := rfl
@[simp] theorem exec_uBreak : exec .uBreak s = .next (raiseCondition .brk s) := rfl
@[simp] theorem exec_uFerr : exec .uFerr s = .next (raiseCondition .frameErr s) := rfl
@[simp] theorem exec_uBwait : exec .uBwait s = .next s := rfl
@[simp] theorem exec_uBrec : exec .uBrec s = .next (recoverIdle s) := rfl
@[simp] theorem exec_uFwait : exec .uFwait s = .next s := rfl
@[simp] theorem exec_uFrec : exec .uFrec s = .next (recoverIdle s) := rfl
@[simp] theorem exec_sFstart : exec .sFstart s = execSFstart s := rfl
@[simp] theorem exec_sTcount : exec .sTcount s = execSTcount s := rfl
@[simp] theorem exec_sTfire : exec .sTfire s = execSTfire s := rfl
@[simp] theorem exec_sShift : exec (.sShift x) s = execSShift x s := rfl
@[simp] theorem exec_sEmit : exec (.sEmit x) s = execSEmit x s := rfl
@[simp] theorem exec_sLatch : exec (.sLatch x) s = execSLatch x s := rfl

/-- What a tick runs for a selected EDGE operation is `exec` of that operation. -/
theorem runEdgeOp_eq_exec (o : EdgeOp) : runEdgeOp o x s = exec (o.instr x) s := by cases o <;> rfl

/-- What a tick runs for a selected UART operation is `exec` of that operation. -/
theorem runUartOp_eq_exec (o : UartOp) : runUartOp o x s = exec (o.instr x) s := by cases o <;> rfl

/-- What a tick runs for a selected SPI operation is `exec` of that operation. -/
theorem runSpiOp_eq_exec (o : SpiOp) : runSpiOp (some o) x s = exec (o.instr x) s := by cases o <;> rfl

@[simp] theorem runSpiOp_none : runSpiOp none x s = .next s := rfl

end Arms

section Inversion

variable {s t : State} {x : Word}

/-! What each meaning that reads a value which may be missing can do. -/

theorem execUSkip_eq_next :
    execUSkip s = .next t ↔ ∃ k, s.uart.skip = k + 1 ∧ s.withUart { s.uart with skip := k } = t := by
  simp [execUSkip, withValue_eq_next, natPred_eq_some]

theorem execUStart_eq_next :
    execUStart s = .next t ↔ 1 ≤ s.uartCfg.period ∧ s.withUart ⟨.shift, 0, 0, startDelay s.uartCfg.period⟩ = t := by
  cases h : s.uartCfg.period <;> simp [execUStart, startSkip, natPred, h]

theorem execUData_eq_next :
    execUData x s = .next t ↔
      s.uartCfg.channel < s.par.w ∧ 1 ≤ s.uartCfg.period ∧
        s.withUart { s.uart with
          reg := orBit s.par s.uart.reg (x.testBit s.uartCfg.channel) s.uart.bit
          bit := s.uart.bit + 1
          skip := s.uartCfg.period - 1 } = t := by
  cases h : s.uartCfg.period <;> simp [execUData, withChannel_eq_next, dataSkip, natPred, h]

theorem execSTcount_eq_next :
    execSTcount s = .next t ↔ ∃ k, s.spi.countdown = k + 1 ∧ s.withSpi { s.spi with countdown := k } = t := by
  simp [execSTcount, withValue_eq_next, natPred_eq_some]

theorem execSShift_eq_next :
    execSShift x s = .next t ↔
      s.spiCfg.dataChannel < s.par.w ∧
        s.withSpi { s.spi with
          reg := shiftIn s.par s.spi.reg (x.testBit s.spiCfg.dataChannel)
          count := s.spi.count + 1 } = t := by
  simp [execSShift, withChannel_eq_next]

theorem execSEmit_eq_next :
    execSEmit x s = .next t ↔
      s.spiCfg.dataChannel < s.par.w ∧
        { s.withSpi (s.spi.clearShift.reload s.spiCfg) with
          spiOut := some (shiftIn s.par s.spi.reg (x.testBit s.spiCfg.dataChannel)) } = t := by
  simp [execSEmit, withChannel_eq_next]

theorem execSLatch_eq_next :
    execSLatch x s = .next t ↔
      s.spiCfg.clockChannel < s.par.w ∧ s.spiCfg.frameChannel < s.par.w ∧
        s.withSpi { s.spi with
          lastClock := x.testBit s.spiCfg.clockChannel
          lastFrame := x.testBit s.spiCfg.frameChannel } = t := by
  simp [execSLatch, withChannel_eq_next]

end Inversion

/-- RESET answers a next state exactly for the records it accepts. -/
theorem execReset_eq_next {c : UnitCfg} {s t : State} :
    execReset c s = .next t ↔ resetAccepts s.par c = true ∧ t = (s.clearOut c.unit).construct c := by
  unfold execReset
  split
  · rename_i h
    exact ⟨fun e => ⟨h, (Host.Outcome.next.inj e).symm⟩, fun e => by rw [e.2]⟩
  · rename_i h
    exact ⟨fun e => (nomatch e), fun e => absurd e.1 h⟩

/-- What a UART tick can do: the channel is in range and the selected operation runs on the state with the outputs cleared. -/
theorem execTick_uart_eq_next {x : Word} {s t : State} :
    execTick .uart x s = .next t ↔
      s.uartCfg.channel < s.par.w ∧
        runUartOp (decodeFU (fuWord s.uartCfg s.uart (x.testBit s.uartCfg.channel))) x (s.clearOut .uart) = .next t := by
  constructor
  · intro h
    obtain ⟨w, hw, ht⟩ := withValue_eq_next.mp h
    obtain ⟨hc, rfl⟩ := selFU_eq_some hw
    exact ⟨hc, ht⟩
  · rintro ⟨hc, h⟩
    exact withValue_eq_next.mpr ⟨_, selFU_of_lt _ _ hc, h⟩

/-- What an SPI tick can do: the operations of the four phases in turn, all selected by the word of the state it starts
from. -/
theorem execTick_spi_eq_next {x : Word} {s t : State} :
    execTick .spi x s = .next t ↔
      ∃ w s1 s2 s3, selFS s.par s.spiCfg s.spi x = some w ∧
        runSpiOp (decodeFS .one w) x (s.clearOut .spi) = .next s1 ∧ runSpiOp (decodeFS .two w) x s1 = .next s2 ∧
        runSpiOp (decodeFS .three w) x s2 = .next s3 ∧ runSpiOp (decodeFS .four w) x s3 = .next t := by
  simp only [execTick, spiTick, withValue_eq_next, spiPhases, andThen_eq_next, clearOut_par, clearOut_spiCfg,
    clearOut_spiState]
  constructor
  · rintro ⟨w, hw, s1, h1, s2, h2, s3, h3, h4⟩
    exact ⟨w, s1, s2, s3, hw, h1, h2, h3, h4⟩
  · rintro ⟨w, s1, s2, s3, hw, h1, h2, h3, h4⟩
    exact ⟨w, hw, s1, h1, s2, h2, s3, h3, h4⟩

end Sys2Proof.Machine
end

