-- ==== Sys2Proof/Laws/PerInstr.lean ====
section
/-! SUPPORT. Statements made for every instruction, one lemma for each constructor. The family `Pattern`: an operation's pattern
fits the low byte, and its match column is 0 in every bit its mask leaves out (30_encoding.md R88, R89, R90, R100). -/

namespace Sys2Proof.Laws.Pattern

/-- The pattern of the operation lies in the low byte and is 0 where the operation does not look. -/
def Statement (i : Instr) : Prop := i.maskWord < 256 ∧ i.matchWord &&& i.maskWord = i.matchWord

theorem reset (c : UnitCfg) : Statement (.reset c) := by simp [Statement, Instr.maskWord, Instr.matchWord]
theorem tick (u : UnitId) (x : Word) : Statement (.tick u x) := by simp [Statement, Instr.maskWord, Instr.matchWord]
theorem idleCycle (u : UnitId) : Statement (.idleCycle u) := by simp [Statement, Instr.maskWord, Instr.matchWord]
theorem eHold (x : Word) : Statement (.eHold x) := by simp [Statement, Instr.maskWord, Instr.matchWord]
theorem eEmit (x : Word) : Statement (.eEmit x) := by simp [Statement, Instr.maskWord, Instr.matchWord]
theorem uSkip : Statement .uSkip := by simp [Statement, Instr.maskWord, Instr.matchWord]
theorem uIdle : Statement .uIdle := by simp [Statement, Instr.maskWord, Instr.matchWord]
theorem uStart : Statement .uStart := by simp [Statement, Instr.maskWord, Instr.matchWord]
theorem uData (x : Word) : Statement (.uData x) := by simp [Statement, Instr.maskWord, Instr.matchWord]
theorem uStop : Statement .uStop := by simp [Statement, Instr.maskWord, Instr.matchWord]
theorem uBreak : Statement .uBreak := by simp [Statement, Instr.maskWord, Instr.matchWord]
theorem uFerr : Statement .uFerr := by simp [Statement, Instr.maskWord, Instr.matchWord]
theorem uBwait : Statement .uBwait := by simp [Statement, Instr.maskWord, Instr.matchWord]
theorem uBrec : Statement .uBrec := by simp [Statement, Instr.maskWord, Instr.matchWord]
theorem uFwait : Statement .uFwait := by simp [Statement, Instr.maskWord, Instr.matchWord]
theorem uFrec : Statement .uFrec := by simp [Statement, Instr.maskWord, Instr.matchWord]
theorem sFstart : Statement .sFstart := by simp [Statement, Instr.maskWord, Instr.matchWord]
theorem sTcount : Statement .sTcount := by simp [Statement, Instr.maskWord, Instr.matchWord]
theorem sTfire : Statement .sTfire := by simp [Statement, Instr.maskWord, Instr.matchWord]
theorem sShift (x : Word) : Statement (.sShift x) := by simp [Statement, Instr.maskWord, Instr.matchWord]
theorem sEmit (x : Word) : Statement (.sEmit x) := by simp [Statement, Instr.maskWord, Instr.matchWord]
theorem sLatch (x : Word) : Statement (.sLatch x) := by simp [Statement, Instr.maskWord, Instr.matchWord]

end Sys2Proof.Laws.Pattern
end

