-- ==== Sys2Proof/Laws/Step.lean ====
section
/-! SUPPORT. What a step can do, said once: it runs the fetched operation of each unit, so a property that every operation keeps
is one that every step keeps. -/

namespace Sys2Proof.Machine

/-- What a unit performs in a cycle, in terms of its pins: RESET, else TICK, else nothing. -/
theorem fetch_eq (c : Cycle) (u : UnitId) (s : State) :
    fetch c u s =
      match c.rst u, tickInput c u s with
      | some k, _ => .reset k
      | none, some x => .tick u x
      | none, none => .idleCycle u := by
  unfold fetch portWord
  cases c.rst u <;> cases tickInput c u s <;> simp <;> rfl

@[simp] theorem runUnits_nil (c : Cycle) (s : State) : runUnits c [] s = .next s := rfl

@[simp] theorem runUnits_cons (c : Cycle) (u : UnitId) (us : List UnitId) (s : State) :
    runUnits c (u :: us) s = andThen (exec (fetch c u s) s) (runUnits c us) := rfl

/-- Legal connections have an order of the units, one of the six. -/
theorem unitOrder_of_legal {p : Params} {w : Wiring} (h : w.legal p = true) :
    ∃ us ∈ unitOrders, unitOrder p w = some us ∧ w.respects [] us = true := by
  have h1 : unitOrders.any (w.respects []) = true := by
    simp only [Wiring.legal, Bool.and_eq_true] at h
    exact h.1
  cases hf : unitOrders.find? (w.respects []) with
  | none =>
    obtain ⟨us, hm, hr⟩ := List.any_eq_true.mp h1
    exact absurd hr (List.find?_eq_none.mp hf us hm)
  | some us =>
    exact ⟨us, List.mem_of_find?_eq_some hf, by simp [unitOrder, h, hf], List.find?_some hf⟩

theorem unitOrder_of_illegal {p : Params} {w : Wiring} (h : w.legal p = false) : unitOrder p w = none := by
  simp [unitOrder, h]

/-- What a step can do: the connections are legal and the units run, in their order, on the state with the cycle consumed. -/
theorem step_eq_next {s t : State} (h : step s = .next t) :
    ∃ us, unitOrder s.par s.wire = some us ∧ runUnits (nextCycle s) us (dropCycle s) = .next t :=
  withValue_eq_next.mp h

/-- A property that every operation keeps is kept by the units of a cycle. -/
theorem runUnits_keeps {P : State → Prop} (hP : ∀ i s t, P s → exec i s = .next t → P t) (c : Cycle) :
    ∀ (us : List UnitId) (s t : State), P s → runUnits c us s = .next t → P t
  | [], s, t, hs, h => by
    cases h
    exact hs
  | u :: us, s, t, hs, h => by
    obtain ⟨s1, h1, h2⟩ := andThen_eq_next.mp h
    exact runUnits_keeps hP c us s1 t (hP _ _ _ hs h1) h2

/-- A property that consuming a cycle and every operation keep is kept by every step. -/
theorem step_keeps {P : State → Prop} (hd : ∀ s, P s → P (dropCycle s))
    (hP : ∀ i s t, P s → exec i s = .next t → P t) {s t : State} (hs : P s) (h : step s = .next t) : P t := by
  obtain ⟨us, -, hr⟩ := step_eq_next h
  exact runUnits_keeps hP _ us _ _ (hd _ hs) hr

@[simp] theorem after_zero (s : State) : after 0 s = some s := rfl

/-- The state after `n + 1` cycles is the state after `n` cycles from the next one. -/
theorem after_succ_of_next {s t : State} (n : Nat) (h : step s = .next t) : after (n + 1) s = after n t := by
  simp [after, Host.Core.run, core, h]

theorem outputs_succ_of_next {s t : State} (u : UnitId) (n : Nat) (h : step s = .next t) :
    outputs u (n + 1) s = (t.out u).toList ++ outputs u n t := by
  simp [outputs, h]

theorem events_succ_of_next {s t : State} (n : Nat) (h : step s = .next t) :
    events (n + 1) s = t.uartEvent.toList ++ events n t := by
  simp [events, h]

end Sys2Proof.Machine
end

