-- ==== Sys2Proof/Tests/Slice0.lean ====
section
/-! SUPPORT. Tests of the model against the spec's own examples (the Example of each operation's rule, 41_edge_filter.md,
42_uart_framer.md, 43_spi_framer.md), words written out from the patterns of 30_encoding.md, an ill-formed term for each check,
and a witness for the hypotheses of each statement. -/

namespace Sys2Proof.Tests

open Sys2Proof Sys2Proof.Machine

/-! ## Helpers -/

/-- The next state, if the outcome is one. -/
def nextOf (r : Result) : Option State :=
  match r with
  | .next s => some s
  | .fault _ => none
  | .refused _ => none

/-- The reason of a refusal, if the outcome is one. -/
def refusalOf (r : Result) : Option Refusal :=
  match r with
  | .next _ => none
  | .fault _ => none
  | .refused e => some e

/-- The instruction a decoding gives, if it gives one. -/
def instrOf (r : Except DecodeError Instr) : Option Instr := r.toOption

/-- EDGE holding a sample. -/
def edgeAt (l : Word) : State := { State.reset with edge := ⟨l⟩ }

/-- UART with a record, in the state written `(mode, reg, bit, skip)` in the spec's examples. -/
def uartAt (c : UartCfg) (u : UartState) : State := { State.reset with uartCfg := c, uart := u }

/-- SPI with a record, in the state written `(reg, count, countdown, last_clock, last_frame)` in the spec's examples. -/
def spiAt (c : SpiCfg) (u : SpiState) : State := { State.reset with spiCfg := c, spi := u }

/-- Clock on channel 0, data on 1, frame on 2, rising edge, chip-select active low and enabled, timeout 5 and enabled, 4 bits. -/
def gated : SpiCfg := ⟨0, 1, 2, true, false, false, 5, 4, true, true⟩

/-- The same without chip-select and timeout. -/
def free : SpiCfg := ⟨0, 1, 2, true, false, false, 0, 4, false, false⟩

/-- A block in mid-run: EDGE has seen a sample, UART is in a frame, SPI in a word. -/
def busy : State :=
  { State.reset with
    edge := ⟨5⟩, uart := ⟨.shift, 0x01, 2, 0⟩, spiCfg := gated, spi := ⟨0x2, 2, 3, false, false⟩,
    edgeOut := some 5, spiOut := some 9 }

/-- What makes a state good, each part a decidable question. -/
theorem good_of_checks (s : State)
    (h : s.par.ok = true ∧ s.wire.legal s.par = true ∧ s.edge.lastSample < 2 ^ s.par.w ∧
      s.uartCfg.legal s.par = true ∧ s.uartCfg.fits s.par = true ∧ s.spiCfg.legal s.par = true ∧
      s.spiCfg.fits s.par = true)
    (hu : s.uart.bit ≤ s.uartCfg.nbBits ∧ s.uart.reg < 2 ^ s.uart.bit ∧ (0 < s.uart.skip → s.uart.mode = .shift) ∧
      (if s.uart.bit = 0 then s.uart.skip ≤ startDelay s.uartCfg.period else s.uart.skip ≤ s.uartCfg.period - 1) ∧
      (s.uart.mode ≠ .shift → s.uart.skip = 0))
    (hs : s.spi.count < s.spiCfg.nbBits ∧ s.spi.reg < 2 ^ s.spi.count ∧ s.spi.countdown ≤ s.spiCfg.frameTimeout ∧
      ((s.spiCfg.timeoutEnable = true ∧ s.spiCfg.frameTimeout ≠ 0) → 1 ≤ s.spi.countdown)) : s.Good where
  par_ok := h.1
  wire_legal := h.2.1
  edge_lt := h.2.2.1
  uart_legal := h.2.2.2.1
  uart_fits := h.2.2.2.2.1
  uart_inv := ⟨hu.1, hu.2.1, hu.2.2.1, hu.2.2.2.1, hu.2.2.2.2⟩
  spi_legal := h.2.2.2.2.2.1
  spi_fits := h.2.2.2.2.2.2
  spi_inv := ⟨hs.1, hs.2.1, hs.2.2.2, hs.2.2.1⟩

theorem busy_good : busy.Good := good_of_checks busy (by decide) (by decide) (by decide)

/-! ## Well-formedness: an ill-formed term for each check -/

theorem test_params : Params.vectors.ok = true ∧ (⟨0, 16, 16, 16⟩ : Params).ok = false ∧ (⟨8, 0, 16, 16⟩ : Params).ok = false := by
  decide

/-- R8, the UART rows, and the width of `period` (R6). -/
theorem test_uart_records :
    UartCfg.legal Params.vectors ⟨1, 0, 7⟩ = true ∧ UartCfg.legal Params.vectors ⟨0, 8, 1⟩ = false ∧
      UartCfg.legal Params.vectors ⟨4, 8, 8⟩ = false ∧ UartCfg.legal Params.vectors ⟨4, 17, 1⟩ = false ∧
      UartCfg.fits Params.vectors ⟨65535, 8, 1⟩ = true ∧ UartCfg.fits Params.vectors ⟨65536, 8, 1⟩ = false := by
  decide

/-- R8, the SPI rows, and the width of `frame_timeout` (R6). -/
theorem test_spi_records :
    SpiCfg.legal Params.vectors gated = true ∧ SpiCfg.legal Params.vectors { gated with clockChannel := 8 } = false ∧
      SpiCfg.legal Params.vectors { gated with dataChannel := 8 } = false ∧
      SpiCfg.legal Params.vectors { gated with frameChannel := 8 } = false ∧
      SpiCfg.legal Params.vectors { gated with nbBits := 0 } = false ∧
      SpiCfg.legal Params.vectors { gated with nbBits := 17 } = false ∧
      SpiCfg.fits Params.vectors { gated with frameTimeout := 65536 } = false := by
  decide

/-- An operation is refused for a record that is not legal or does not fit, and for a sample of more than `W` bits. -/
theorem test_ill_formed_operations :
    ([.reset (.uart ⟨0, 8, 1⟩), .reset (.uart ⟨65536, 8, 1⟩), .reset (.spi { gated with nbBits := 0 }), .tick .edge 256, .eHold 256,
      .eEmit 256, .uData 256, .sShift 256, .sEmit 256, .sLatch 256] : List Instr).all
      (fun i => !i.wellFormed Params.vectors) = true := by
  decide

/-- Connections: a unit feeding itself and a ring are refused, and so is a word of another width than a sample's (D24). -/
theorem test_connections :
    Wiring.legal Params.vectors ⟨.unit .edge, .host, .host⟩ = false ∧
      Wiring.legal ⟨8, 8, 16, 16⟩ ⟨.unit .spi, .unit .edge, .unit .uart⟩ = false ∧
      Wiring.legal Params.vectors ⟨.host, .host, .unit .uart⟩ = false ∧
      Wiring.legal ⟨8, 8, 16, 16⟩ ⟨.host, .host, .unit .uart⟩ = true ∧
      Wiring.legal Params.vectors ⟨.host, .unit .edge, .unit .edge⟩ = true := by
  decide

/-! ## Decoding: words written out from the patterns of R100, R88, R89, R90 -/

/-- PORT: `rst` at bit 1, `tick_en` at bit 0. -/
theorem test_decode_port :
    instrOf (decode Params.vectors (.port .uart) 0b00) = some (.idleCycle .uart) ∧
      instrOf (decode Params.vectors (.port .spi) (0b01 + 256 * 0x07)) = some (.tick .spi 0x07) ∧
      instrOf (decode Params.vectors (.port .edge) 0b10) = some (.reset .edge) ∧
      instrOf (decode Params.vectors (.port .edge) 0b11) = some (.reset .edge) ∧
      instrOf (decode Params.vectors (.port .uart) (0b10 + 256 * (4 + 8 * 2 ^ 16 + 1 * 2 ^ 21))) =
        some (.reset (.uart ⟨4, 8, 1⟩)) := by
  decide

/-- The packed SPI record (R99): the ten fields in order, of 3, 3, 3, 1, 1, 1, 16, 5, 1 and 1 bits. -/
theorem test_decode_spi_record :
    instrOf (decode Params.vectors (.port .spi)
      (0b10 + 256 * (0 + 1 * 2 ^ 3 + 2 * 2 ^ 6 + 1 * 2 ^ 9 + 0 * 2 ^ 10 + 0 * 2 ^ 11 + 5 * 2 ^ 12 + 4 * 2 ^ 28 + 1 * 2 ^ 33 +
        1 * 2 ^ 34))) = some (.reset (.spi gated)) := by
  decide

/-- FE: `d` at bit 0. -/
theorem test_decode_fe :
    instrOf (decode Params.vectors .fe (0b0 + 256 * 0xFF)) = some (.eHold 0xFF) ∧
      instrOf (decode Params.vectors .fe (0b1 + 256 * 0x80)) = some (.eEmit 0x80) := by
  decide

/-- FU: `s mm i c z`, every operation by two words that differ in the bits it does not look at. -/
theorem test_decode_fu :
    [0b100000, 0b111111, 0b000100, 0b000111, 0b000000, 0b000011, 0b001100, 0b001101, 0b001001, 0b001000, 0b010000,
      0b010011, 0b010100, 0b010111, 0b011000, 0b011011, 0b011100, 0b011111].map
      (fun w => instrOf (decode Params.vectors .fu w)) =
    [Instr.uSkip, .uSkip, .uIdle, .uIdle, .uStart, .uStart, .uStop, .uStop, .uBreak, .uFerr, .uBwait, .uBwait, .uBrec, .uBrec,
      .uFwait, .uFwait, .uFrec, .uFrec].map some ∧
    instrOf (decode Params.vectors .fu (0b001010 + 256 * 0x02)) = some (.uData 0x02) ∧
    instrOf (decode Params.vectors .fu (0b001111 + 256 * 0x02)) = some (.uData 0x02) := by
  decide

/-- FS: `a t z g e f`, each operation in its phase. -/
theorem test_decode_fs :
    instrOf (decode Params.vectors (.fs .one) 0b100000) = some .sFstart ∧
      instrOf (decode Params.vectors (.fs .two) 0b110111) = some .sTcount ∧
      instrOf (decode Params.vectors (.fs .two) 0b011000) = some .sTfire ∧
      instrOf (decode Params.vectors (.fs .three) (0b111110 + 256 * 3)) = some (.sShift 3) ∧
      instrOf (decode Params.vectors (.fs .three) (0b000111 + 256 * 3)) = some (.sEmit 3) ∧
      instrOf (decode Params.vectors (.fs .four) (0b000000 + 256 * 3)) = some (.sLatch 3) ∧
      instrOf (decode Params.vectors (.fs .one) 0b011111) = none ∧
      instrOf (decode Params.vectors (.fs .two) 0b101111) = none ∧
      instrOf (decode Params.vectors (.fs .three) 0b111011) = none := by
  decide

/-- What is no instruction is rejected by name. -/
theorem test_decode_rejects :
    (decode Params.vectors (.port .edge) 4 = .error .strayBits) ∧ (decode Params.vectors .fe 2 = .error .strayBits) ∧
      (decode Params.vectors .fu 64 = .error .strayBits) ∧ (decode Params.vectors (.fs .one) 64 = .error .strayBits) ∧
      (decode Params.vectors .fe (1 + 256 * 256) = .error .operandTooWide) ∧
      (decode Params.vectors .fu (0x20 + 256) = .error .strayOperand) ∧
      (decode Params.vectors (.port .uart) (2 + 256 * 2 ^ 24) = .error .operandTooWide) ∧
      (decode Params.vectors (.fs .two) 0 = .error .phaseDoesNothing) := by
  decide

/-- Every operation is read from some word of the table at a place it may stand at. -/
theorem test_table_words :
    decodeTableWord 2 0b00 = some (.idleCycle .edge) ∧ decodeTableWord 1 0b0 = some (.eHold 0) ∧
      decodeTableWord 8 0x01 = some (.tick .edge 0) ∧ decodeTableWord 8 0x02 = some (.reset .edge) ∧
      decodeTableWord 8 0x06 = some (.sShift 0) ∧ decodeTableWord 8 0x07 = some (.sEmit 0) ∧
      decodeTableWord 8 0x0C = some .uStop ∧ decodeTableWord 8 0x40 = none := by
  decide

/-! ## The port and the bus accessor -/

/-- The examples of R110 and R111, and the boundary channels. -/
theorem test_accessor :
    channel Params.vectors 0x06 1 = some true ∧ channel Params.vectors 0x06 0 = some false ∧
      channel Params.vectors 0x80 7 = some true ∧ channel Params.vectors 0xFF 8 = none ∧ value Params.vectors 0xA5 = 0xA5 := by
  decide

/-- R114, R52: the SPI state takes three reset values from the record. -/
theorem test_reset_spi :
    nextOf (exec (.reset (.spi { gated with clockPolarity := true })) busy) =
      some { busy with
        spiCfg := { gated with clockPolarity := true }, spi := ⟨0, 0, 5, true, true⟩, spiOut := none } := by
  decide

/-- R114: an illegal record is refused. -/
theorem test_reset_refuses :
    refusalOf (exec (.reset (.uart ⟨0, 8, 1⟩)) busy) = some (.illegalConfiguration .uart) ∧
      refusalOf (exec (.reset (.spi { gated with frameTimeout := 65536 })) busy) = some (.illegalConfiguration .spi) := by
  decide

theorem test_idle_cycle : nextOf (exec (.idleCycle .spi) busy) = some { busy with spiOut := none } := by decide

/-- R170: the frame start clears two pending bits, then the edge's bit is the first of the new word. -/
theorem test_tick_spi :
    nextOf (exec (.tick .spi 0b011) { busy with spi := ⟨0x2, 2, 3, false, true⟩ }) =
      some { busy with spi := ⟨0x1, 1, 2, true, false⟩, spiOut := none } := by
  decide

/-- U11: a countdown of 0 with the timeout active is given no value. -/
theorem test_tick_refused :
    refusalOf (exec (.tick .spi 0) { busy with spi := ⟨0, 0, 0, false, false⟩ }) = some .belowZero := by
  decide

/-! ## EDGE: the examples of R131 and R132 -/

theorem test_eHold :
    nextOf (exec (.eHold 0x05) (edgeAt 0x05)) = some (edgeAt 0x05) ∧
      nextOf (exec (.tick .edge 0x05) (edgeAt 0x05)) = some (edgeAt 0x05) := by
  decide

theorem test_eEmit :
    nextOf (exec (.eEmit 0x04) (edgeAt 0x05)) = some { edgeAt 0x04 with edgeOut := some 0x04 } ∧
      nextOf (exec (.tick .edge 0x04) (edgeAt 0x05)) = some { edgeAt 0x04 with edgeOut := some 0x04 } := by
  decide

/-! ## UART: the examples of R144 to R154, on the operation and on the tick that selects it -/

theorem test_uSkip :
    nextOf (exec .uSkip (uartAt ⟨4, 8, 1⟩ ⟨.shift, 0x01, 1, 2⟩)) = some (uartAt ⟨4, 8, 1⟩ ⟨.shift, 0x01, 1, 1⟩) ∧
      nextOf (exec (.tick .uart 0) (uartAt ⟨4, 8, 1⟩ ⟨.shift, 0x01, 1, 2⟩)) =
        some (uartAt ⟨4, 8, 1⟩ ⟨.shift, 0x01, 1, 1⟩) := by
  decide

theorem test_uIdle :
    nextOf (exec (.tick .uart 2) (uartAt ⟨4, 8, 1⟩ ⟨.idle, 0x55, 8, 0⟩)) = some (uartAt ⟨4, 8, 1⟩ ⟨.idle, 0x55, 8, 0⟩) := by
  decide

theorem test_uStart :
    nextOf (exec .uStart (uartAt ⟨4, 8, 1⟩ ⟨.idle, 0x55, 8, 0⟩)) = some (uartAt ⟨4, 8, 1⟩ ⟨.shift, 0x00, 0, 5⟩) ∧
      nextOf (exec (.tick .uart 0) (uartAt ⟨4, 8, 1⟩ ⟨.idle, 0x55, 8, 0⟩)) =
        some (uartAt ⟨4, 8, 1⟩ ⟨.shift, 0x00, 0, 5⟩) := by
  decide

theorem test_uData :
    nextOf (exec (.uData 2) (uartAt ⟨4, 8, 1⟩ ⟨.shift, 0x01, 2, 0⟩)) = some (uartAt ⟨4, 8, 1⟩ ⟨.shift, 0x05, 3, 3⟩) ∧
      nextOf (exec (.tick .uart 2) (uartAt ⟨4, 8, 1⟩ ⟨.shift, 0x01, 2, 0⟩)) =
        some (uartAt ⟨4, 8, 1⟩ ⟨.shift, 0x05, 3, 3⟩) := by
  decide

theorem test_uStop :
    nextOf (exec (.tick .uart 2) (uartAt ⟨4, 8, 1⟩ ⟨.shift, 0x55, 8, 0⟩)) =
      some { uartAt ⟨4, 8, 1⟩ ⟨.idle, 0x55, 8, 0⟩ with uartOut := some 0x55 } := by
  decide

theorem test_uBreak :
    nextOf (exec (.tick .uart 0) (uartAt ⟨4, 2, 1⟩ ⟨.shift, 0x00, 2, 0⟩)) =
      some { uartAt ⟨4, 2, 1⟩ ⟨.brk, 0x00, 2, 0⟩ with uartEvent := some .brk } := by
  decide

theorem test_uFerr :
    nextOf (exec (.tick .uart 0) (uartAt ⟨4, 2, 1⟩ ⟨.shift, 0x01, 2, 0⟩)) =
      some { uartAt ⟨4, 2, 1⟩ ⟨.frameErr, 0x01, 2, 0⟩ with uartEvent := some .frameErr } := by
  decide

theorem test_uBwait :
    nextOf (exec (.tick .uart 0) (uartAt ⟨4, 2, 1⟩ ⟨.brk, 0x00, 2, 0⟩)) = some (uartAt ⟨4, 2, 1⟩ ⟨.brk, 0x00, 2, 0⟩) := by
  decide

theorem test_uBrec :
    nextOf (exec (.tick .uart 2) (uartAt ⟨4, 2, 1⟩ ⟨.brk, 0x00, 2, 0⟩)) = some (uartAt ⟨4, 2, 1⟩ ⟨.idle, 0x00, 2, 0⟩) := by
  decide

theorem test_uFwait :
    nextOf (exec (.tick .uart 0) (uartAt ⟨4, 2, 1⟩ ⟨.frameErr, 0x01, 2, 0⟩)) =
      some (uartAt ⟨4, 2, 1⟩ ⟨.frameErr, 0x01, 2, 0⟩) := by
  decide

theorem test_uFrec :
    nextOf (exec (.tick .uart 2) (uartAt ⟨4, 2, 1⟩ ⟨.frameErr, 0x01, 2, 0⟩)) =
      some (uartAt ⟨4, 2, 1⟩ ⟨.idle, 0x01, 2, 0⟩) := by
  decide

/-! ## SPI: the examples of R172 to R177 -/

theorem test_sFstart :
    nextOf (exec .sFstart (spiAt gated ⟨0x3, 2, 0, false, true⟩)) = some (spiAt gated ⟨0x0, 0, 0, false, true⟩) ∧
      decodeFS .one (fsWord gated ⟨0x3, 2, 0, false, true⟩ false false) = some .fstart := by
  decide

theorem test_sTcount :
    nextOf (exec .sTcount (spiAt gated ⟨0x1, 1, 4, false, false⟩)) = some (spiAt gated ⟨0x1, 1, 3, false, false⟩) ∧
      decodeFS .two (fsWord gated ⟨0x1, 1, 4, false, false⟩ false false) = some .tcount := by
  decide

theorem test_sTfire :
    nextOf (exec .sTfire (spiAt gated ⟨0x1, 1, 1, false, false⟩)) = some (spiAt gated ⟨0x0, 0, 5, false, false⟩) ∧
      decodeFS .two (fsWord gated ⟨0x1, 1, 1, false, false⟩ false false) = some .tfire := by
  decide

theorem test_sShift :
    nextOf (exec (.sShift 2) (spiAt free ⟨0x2, 2, 0, false, false⟩)) = some (spiAt free ⟨0x5, 3, 0, false, false⟩) ∧
      decodeFS .three (fsWord free ⟨0x2, 2, 0, false, false⟩ true false) = some .shift := by
  decide

theorem test_sEmit :
    nextOf (exec (.sEmit 0) (spiAt free ⟨0x5, 3, 0, false, false⟩)) =
        some { spiAt free ⟨0x0, 0, 0, false, false⟩ with spiOut := some 0xA } ∧
      decodeFS .three (fsWord free ⟨0x5, 3, 0, false, false⟩ true false) = some .emit := by
  decide

theorem test_sLatch :
    nextOf (exec (.sLatch 0b101) (spiAt free ⟨0x0, 0, 0, false, true⟩)) = some (spiAt free ⟨0x0, 0, 0, true, true⟩) := by
  decide

/-! ## The step -/

/-- Nothing is supplied at reset: the block idles (log 16). -/
theorem test_step_reset : nextOf (step State.reset) = some State.reset := by decide

/-- The next step after `withFetchWord` runs the operation of the word: E.EMIT, U.BREAK, S.EMIT. -/
theorem test_step_runs_words :
    (nextOf (step (State.reset.withFetchWord 1 0b1))).map (fun t => (t.edge.lastSample, t.edgeOut)) = some (0, some 0) ∧
      (nextOf (step (State.reset.withFetchWord 8 0x09))).map (fun t => (t.uart.mode, t.uartEvent)) = some (.brk, some .brk) ∧
      (nextOf (step (State.reset.withFetchWord 8 0x07))).map (fun t => t.spiOut) = some (some 0) := by
  decide

/-- R118: behind EDGE the SPI unit ticks in the cycle in which EDGE emits, on the value emitted, and on no other. -/
theorem test_step_chain :
    (nextOf (step { State.reset with wire := ⟨.host, .host, .unit .edge⟩, input := edgeCycles [0b011] })).map (fun t => t.spi) =
        some ⟨1, 1, 0, true, false⟩ ∧
      (nextOf (step { State.reset with wire := ⟨.host, .host, .unit .edge⟩, input := edgeCycles [0] })).map (fun t => t.spi) =
        some State.reset.spi := by
  decide

/-- Log 21: an illegal RESET of UART refuses the whole cycle, with the TICK of EDGE in it. -/
theorem test_step_refused_as_a_whole :
    refusalOf (step { State.reset with input := [⟨Pins.ofTick 3, Pins.ofReset ⟨0, 8, 1⟩, Pins.idle⟩] }) =
      some (.illegalConfiguration .uart) := by
  decide

theorem test_step_ring :
    refusalOf (step { State.reset with wire := ⟨.unit .edge, .host, .host⟩ }) = some .illegalWiring := by
  decide

/-! ## Witnesses: the hypotheses of each statement are met together -/

/-- DecodeOfEncodeIsIdentity: records with every field at its largest value, and a sample with every bit set. -/
theorem witness_DecodeOfEncodeIsIdentity :
    Params.vectors.ok = true ∧ (Instr.reset (.uart ⟨65535, 16, 7⟩)).wellFormed Params.vectors = true ∧
      (Instr.reset (.spi ⟨7, 7, 7, true, true, true, 65535, 16, true, true⟩)).wellFormed Params.vectors = true ∧
      (Instr.tick .spi 255).wellFormed Params.vectors = true ∧ (Instr.uData 0).wellFormed Params.vectors = true := by
  decide

theorem witness_BusAccessorReadsBits : 0 < Params.vectors.w ∧ 7 < Params.vectors.w ∧ 255 < 2 ^ Params.vectors.w := by decide

theorem witness_ResetConstructsTheUnit :
    UartCfg.legal busy.par ⟨1, 0, 7⟩ = true ∧ UartCfg.fits busy.par ⟨1, 0, 7⟩ = true ∧
      SpiCfg.legal busy.par { gated with nbBits := 1 } = true ∧ SpiCfg.fits busy.par { gated with nbBits := 1 } = true := by
  decide

/-- ResetRefusesIllegalRecords: one record for each way of being illegal. -/
theorem witness_ResetRefusesIllegalRecords :
    (⟨0, 8, 1⟩ : UartCfg).period = 0 ∧ busy.par.w ≤ (⟨4, 8, 8⟩ : UartCfg).channel ∧ busy.par.wordW < (⟨4, 17, 1⟩ : UartCfg).nbBits ∧
      busy.par.w ≤ { gated with clockChannel := 8 }.clockChannel ∧ busy.par.w ≤ { gated with dataChannel := 8 }.dataChannel ∧
      busy.par.w ≤ { gated with frameChannel := 8 }.frameChannel ∧ { gated with nbBits := 0 }.nbBits = 0 ∧
      busy.par.wordW < { gated with nbBits := 17 }.nbBits := by
  decide

/-- TickRunsTheSelectedOperations: the selector words of two ticks. -/
theorem witness_TickRunsTheSelectedOperations :
    selFU busy.par busy.uartCfg busy.uart 2 = some 0b001110#6 ∧ selFS busy.par busy.spiCfg busy.spi 3 = some 0b010110#6 := by
  decide

/-- TickCompletesInGoodStates, StepKeepsStatesGood, RegistersFitTheirWidths: a good state in mid-run, with a next state. -/
theorem witness_good_states : busy.Good ∧ (nextOf (step busy)).isSome = true := ⟨busy_good, by decide⟩

/-- TickRefusesMissingChannels: each of the four channels at `W`, and a UART that skips. -/
theorem witness_TickRefusesMissingChannels :
    busy.par.w ≤ (spiAt { gated with clockChannel := 8 } busy.spi).spiCfg.clockChannel ∧
      busy.par.w ≤ (spiAt { gated with dataChannel := 8 } busy.spi).spiCfg.dataChannel ∧
      (uartAt ⟨4, 8, 8⟩ ⟨.shift, 1, 1, 2⟩).par.w ≤ (uartAt ⟨4, 8, 8⟩ ⟨.shift, 1, 1, 2⟩).uartCfg.channel ∧
    (uartAt ⟨4, 8, 8⟩ UartState.reset).par.w ≤ (uartAt ⟨4, 8, 8⟩ UartState.reset).uartCfg.channel ∧
      busy.par.w ≤ (spiAt { gated with frameChannel := 8 } busy.spi).spiCfg.frameChannel := by
  decide

/-- EHoldKeepsTheSample, EEmitEmitsTheNewSample, EdgeTickIsItsProcedure: an equal sample, another one, and the largest. -/
theorem witness_edge_samples :
    (5 < 2 ^ busy.par.w ∧ 5 = busy.edge.lastSample) ∧ 4 < 2 ^ busy.par.w ∧ 255 < 2 ^ busy.par.w := by
  decide

/-- Some samples for EDGE from the host, after a sample 5. -/
def edgeRun : State := { busy with input := edgeCycles [5, 6, 6, 5] ++ [Cycle.idle] }

theorem witness_EdgeOutputsAreTheChanges :
    edgeRun.Good ∧ edgeRun.wire.edge = .host ∧ (∀ x ∈ [5, 6, 6, 5], x < 2 ^ edgeRun.par.w) ∧
      edgeRun.input = edgeCycles [5, 6, 6, 5] ++ [Cycle.idle] :=
  ⟨good_of_checks edgeRun (by decide) (by decide) (by decide), rfl, by decide, rfl⟩

/-- Three equal samples that differ from the one before. -/
def equalRun : State := { busy with input := edgeCycles (List.replicate 3 6) ++ [] }

theorem witness_IdenticalSamplesEmitOnce :
    equalRun.Good ∧ equalRun.wire.edge = .host ∧ 6 < 2 ^ equalRun.par.w ∧ 6 ≠ equalRun.edge.lastSample ∧ 1 ≤ 3 ∧
      equalRun.input = edgeCycles (List.replicate 3 6) ++ [] :=
  ⟨good_of_checks equalRun (by decide) (by decide) (by decide), rfl, by decide, by decide, by decide, rfl⟩

/-- USkipDecrementsSkip: the smallest `skip` it is selected on. -/
theorem witness_USkipDecrementsSkip : (uartAt ⟨4, 8, 1⟩ ⟨.shift, 1, 1, 1⟩).uart.skip > 0 := by decide

/-- UStartBeginsAFrame, UDataCollectsOneBit, UartTickIsItsProcedure: a legal record with the smallest period; the last data bit. -/
theorem witness_UDataCollectsOneBit :
    1 ≤ (uartAt ⟨1, 16, 7⟩ ⟨.shift, 0x7FFF, 15, 0⟩).uartCfg.period ∧
      (uartAt ⟨1, 16, 7⟩ ⟨.shift, 0x7FFF, 15, 0⟩).uartCfg.legal Params.vectors = true ∧
      (uartAt ⟨1, 16, 7⟩ ⟨.shift, 0x7FFF, 15, 0⟩).uart.bit < (uartAt ⟨1, 16, 7⟩ ⟨.shift, 0x7FFF, 15, 0⟩).uartCfg.nbBits ∧
      (uartAt ⟨1, 16, 7⟩ ⟨.shift, 0x7FFF, 15, 0⟩).uart.reg < 2 ^ (uartAt ⟨1, 16, 7⟩ ⟨.shift, 0x7FFF, 15, 0⟩).uart.bit := by
  decide

/-- UStopEmitsTheWord: a state of the invariant on the stop tick, with the largest word. -/
theorem witness_UStopEmitsTheWord : UartInv ⟨4, 8, 1⟩ ⟨.shift, 0xFF, 8, 0⟩ :=
  ⟨by decide, by decide, by decide, by decide, by decide⟩

/-- The tests of each UART operation are met by some state, so no selection is empty. -/
theorem witness_uart_selections :
    [fuWord ⟨4, 2, 1⟩ ⟨.brk, 0, 0, 1⟩ true, fuWord ⟨4, 2, 1⟩ ⟨.idle, 0, 0, 0⟩ true, fuWord ⟨4, 2, 1⟩ ⟨.idle, 0, 0, 0⟩ false,
      fuWord ⟨4, 2, 1⟩ ⟨.shift, 0, 1, 0⟩ false, fuWord ⟨4, 2, 1⟩ ⟨.shift, 0, 2, 0⟩ true,
      fuWord ⟨4, 2, 1⟩ ⟨.shift, 0, 2, 0⟩ false, fuWord ⟨4, 2, 1⟩ ⟨.shift, 1, 2, 0⟩ false,
      fuWord ⟨4, 2, 1⟩ ⟨.brk, 0, 2, 0⟩ false, fuWord ⟨4, 2, 1⟩ ⟨.brk, 0, 2, 0⟩ true,
      fuWord ⟨4, 2, 1⟩ ⟨.frameErr, 1, 2, 0⟩ false, fuWord ⟨4, 2, 1⟩ ⟨.frameErr, 1, 2, 0⟩ true].map decodeFU =
    [.skip, .idle, .start, .data, .stop, .brk, .ferr, .bwait, .brec, .fwait, .frec] := by
  decide

/-- StartDelayValuesAndBounds: the smallest period. -/
theorem witness_StartDelayValuesAndBounds : 1 - 1 ≤ startDelay 1 ∧ startDelay 1 ≤ 2 * 1 - 2 := by decide

/-- UartReadsOnlyItsChannel: two samples with the same bit on channel 1; a state that skips. -/
theorem witness_UartReadsOnlyItsChannel :
    Nat.testBit 0xFF busy.uartCfg.channel = Nat.testBit 0x02 busy.uartCfg.channel ∧
      busy.uartCfg.channel < busy.par.w ∧ (uartAt ⟨4, 8, 1⟩ ⟨.shift, 1, 1, 3⟩).uart.skip > 0 := by
  decide

/-- ModeTransitionsAreTheSixEdges, UartTickHasOneResult: a tick with its selector word and its next state. -/
theorem witness_uart_ticks :
    selFU busy.par ⟨4, 2, 1⟩ busy.uart 0 = some 0b001000#6 ∧
      (nextOf (exec (.tick .uart 0) { busy with uartCfg := ⟨4, 2, 1⟩ })).map (fun t => t.uart.mode) = some .frameErr := by
  decide

/-- EventsHaveOneSource: both events, from the operations themselves. -/
theorem witness_EventsHaveOneSource :
    (nextOf (exec .uBreak busy)).map (fun t => t.uartEvent) = some (some .brk) ∧
      (nextOf (exec .uFerr busy)).map (fun t => t.uartEvent) = some (some .frameErr) ∧ busy.uartEvent = none := by
  decide

/-- One bit per frame and two samples per bit: a start sample, then seven more low samples. -/
def lowRun : State :=
  { busy with uartCfg := ⟨2, 1, 1⟩, uart := UartState.reset, input := uartCycles (0 :: List.replicate 7 0) ++ [] }

theorem witness_UartSamplesAtTheStatedTicks :
    lowRun.Good ∧ lowRun.wire.uart = .host ∧ lowRun.uart.mode = .idle ∧ Nat.testBit 0 lowRun.uartCfg.channel = false ∧
      lowRun.input = uartCycles (0 :: List.replicate 7 0) ++ [] ∧
      startDelay lowRun.uartCfg.period + lowRun.uartCfg.nbBits * lowRun.uartCfg.period ≤ (List.replicate 7 0).length :=
  ⟨good_of_checks lowRun (by decide) (by decide) (by decide), rfl, rfl, by decide, rfl, by decide⟩

theorem witness_LowLineBreaksOnce :
    lowRun.Good ∧ lowRun.wire.uart = .host ∧ lowRun.uart.mode = .idle ∧
      (∀ x ∈ 0 :: List.replicate 7 0, Nat.testBit x lowRun.uartCfg.channel = false) ∧
      startDelay lowRun.uartCfg.period + 2 + lowRun.uartCfg.nbBits * lowRun.uartCfg.period ≤ (0 :: List.replicate 7 0).length ∧
      lowRun.input = uartCycles (0 :: List.replicate 7 0) ++ [] :=
  ⟨good_of_checks lowRun (by decide) (by decide) (by decide), rfl, rfl, by decide, by decide, rfl⟩

/-- Two frames of two bits. -/
def frameRun : State :=
  { busy with
    uartCfg := ⟨2, 2, 1⟩, uart := UartState.reset, input := uartCycles ([3, 0].flatMap (uframe ⟨2, 2, 1⟩)) ++ [] }

theorem witness_UartDecodesWhatUframeEncodes :
    frameRun.Good ∧ frameRun.wire.uart = .host ∧ frameRun.uart.mode = .idle ∧
      (∀ v ∈ [3, 0], v < 2 ^ frameRun.uartCfg.nbBits) ∧
      frameRun.input = uartCycles ([3, 0].flatMap (uframe frameRun.uartCfg)) ++ [] :=
  ⟨good_of_checks frameRun (by decide) (by decide) (by decide), rfl, rfl, by decide, rfl⟩

/-- SFstartClears, STcountDecrements, STfireClearsAndReloads, SShiftShiftsTheDataBitIn, SEmitEmitsTheWord: the selections are met. -/
theorem witness_spi_selections :
    decodeFS .one (fsWord gated ⟨0, 0, 5, false, true⟩ false false) = some .fstart ∧
      decodeFS .one (fsWord gated ⟨0, 0, 5, false, false⟩ false false) = none ∧
      decodeFS .two (fsWord gated ⟨0, 0, 2, false, true⟩ false false) = some .tcount ∧
      decodeFS .two (fsWord gated ⟨0, 0, 1, false, true⟩ false false) = some .tfire ∧
      decodeFS .two (fsWord free ⟨0, 0, 1, false, true⟩ false false) = none ∧
      decodeFS .three (fsWord gated ⟨7, 3, 5, false, true⟩ true false) = some .shift ∧
      decodeFS .three (fsWord gated ⟨7, 3, 5, false, false⟩ true false) = some .emit ∧
      decodeFS .three (fsWord gated ⟨7, 3, 5, false, true⟩ true true) = none := by
  decide

/-- STcountDecrements, SShiftShiftsTheDataBitIn, SEmitEmitsTheWord, SLatchStoresTheLevels, SpiTickIsItsProcedure. -/
theorem witness_spi_operands :
    1 ≤ busy.spi.countdown ∧ busy.spiCfg.legal busy.par = true ∧ SpiInv busy.spiCfg busy.spi ∧
      busy.spiCfg.dataChannel < busy.par.w ∧ busy.spiCfg.clockChannel < busy.par.w ∧ busy.spiCfg.frameChannel < busy.par.w ∧
      7 < 2 ^ 3 ∧ 3 + 1 = gated.nbBits :=
  ⟨by decide, by decide, busy_good.spi_inv, by decide, by decide, by decide, by decide, by decide⟩

theorem witness_SpiReadsOnlyItsChannels :
    Nat.testBit 0xFB busy.spiCfg.clockChannel = Nat.testBit 0x03 busy.spiCfg.clockChannel ∧
      Nat.testBit 0xFB busy.spiCfg.frameChannel = Nat.testBit 0x03 busy.spiCfg.frameChannel ∧
      Nat.testBit 0xFB busy.spiCfg.dataChannel = Nat.testBit 0x03 busy.spiCfg.dataChannel := by
  decide

/-- PolarityIsReadByResetAlone, OnlyResetChangesConfiguration, UnitsDoNotInteract, EmittedWordsFit: a tick that emits. -/
theorem witness_operations_with_next_states :
    (∀ c, Instr.tick .spi 1 ≠ .reset c) ∧
      (nextOf (exec (.tick .spi 1) { busy with spi := ⟨0x7, 3, 3, false, false⟩ })).map (fun t => t.out .spi) =
        some (some 0xE) ∧
      sameFor .spi busy { busy with edge := ⟨0⟩, uart := UartState.reset } :=
  ⟨fun _ h => by simp at h, by decide, rfl, rfl, rfl, rfl⟩

/-- Chip-select and timeout off, one bit pending, three samples. -/
def clockRun : State :=
  { busy with spiCfg := free, spi := ⟨1, 1, 0, false, false⟩, input := spiCycles [1, 0, 1] ++ [] }

theorem witness_SpiWordsAreEdgesOverBits :
    clockRun.Good ∧ clockRun.wire.spi = .host ∧ clockRun.spiCfg.frameEnable = false ∧
      ¬ SpiCfg.timeoutActive clockRun.spiCfg ∧ clockRun.input = spiCycles [1, 0, 1] ++ [] :=
  ⟨good_of_checks clockRun (by decide) (by decide) (by decide), rfl, rfl, by simp [SpiCfg.timeoutActive, clockRun, free], rfl⟩

/-- No bit pending, the samples of one word. -/
def wordRun : State :=
  { busy with spiCfg := free, spi := ⟨0, 0, 0, true, false⟩, input := spiCycles (sword free 0xD true) ++ [] }

theorem witness_SpiDecodesWhatSwordEncodes :
    wordRun.Good ∧ wordRun.wire.spi = .host ∧ (wordRun.spiCfg.frameEnable = false ∨ true = wordRun.spiCfg.frameActive) ∧
      ¬ SpiCfg.timeoutActive wordRun.spiCfg ∧ wordRun.spi.count = 0 ∧
      wordRun.spiCfg.clockChannel ≠ wordRun.spiCfg.dataChannel ∧ wordRun.spiCfg.clockChannel ≠ wordRun.spiCfg.frameChannel ∧
      wordRun.spiCfg.dataChannel ≠ wordRun.spiCfg.frameChannel ∧ 0xD < 2 ^ wordRun.spiCfg.nbBits ∧
      wordRun.input = spiCycles (sword wordRun.spiCfg 0xD true) ++ [] :=
  ⟨good_of_checks wordRun (by decide) (by decide) (by decide), rfl, by decide,
    by simp [SpiCfg.timeoutActive, wordRun, free], rfl, by decide, by decide, by decide, by decide, rfl⟩

/-- PinsSelectTheOperation: rst with tick_en, tick_en alone, neither; a chained unit whose source has emitted, and has not. -/
theorem witness_PinsSelectTheOperation :
    Cycle.rst ⟨⟨some (), true, 3⟩, Pins.idle, Pins.idle⟩ .edge = some .edge ∧
      Cycle.hostTick (Cycle.ofEdge (Pins.ofTick 3)) .edge = some 3 ∧ Cycle.hostTick Cycle.idle .edge = none ∧
      Wiring.source ⟨.host, .host, .unit .edge⟩ .spi = .unit .edge ∧ Wiring.unchained.source .edge = .host ∧
      busy.out .edge = some 5 ∧ State.reset.out .edge = none := by
  decide

/-- StepRunsEachUnitsOperation: legal connections, and a ring. -/
theorem witness_StepRunsEachUnitsOperation :
    busy.wire.legal busy.par = true ∧ Wiring.legal busy.par ⟨.unit .edge, .host, .host⟩ = false := by
  decide

/-- StepNeverBlocks: a cycle that resets UART and ticks EDGE. -/
def resetRun : State := { busy with input := [⟨Pins.ofTick 3, Pins.ofReset ⟨1, 0, 7⟩, Pins.idle⟩] }

theorem witness_StepNeverBlocks :
    resetRun.Good ∧ (resetRun.input.headD Cycle.idle).resetsAccepted resetRun.par := by
  refine ⟨good_of_checks resetRun (by decide) (by decide) (by decide), ?_⟩
  intro u k h
  cases u <;> cases h
  decide

theorem witness_ExhaustedInputHoldsTheState : busy.wire.legal busy.par = true ∧ busy.input = [] := by decide

/-- EDGE in front of SPI, and SPI alone, on the same samples from reset. -/
def chainRun : State :=
  { busy with
    wire := ⟨.host, .host, .unit .edge⟩, edge := EdgeState.reset, spiCfg := free, spi := SpiState.reset free,
    input := edgeCycles [1, 1, 0, 3] ++ [] }

def plainRun : State :=
  { busy with wire := Wiring.unchained, spiCfg := free, spi := SpiState.reset free, input := spiCycles [1, 1, 0, 3] ++ [] }

theorem witness_EdgeFilterIsTransparentToSpi :
    chainRun.Good ∧ plainRun.Good ∧ chainRun.par = plainRun.par ∧ chainRun.spiCfg = plainRun.spiCfg ∧
      chainRun.wire = ⟨.host, .host, .unit .edge⟩ ∧ plainRun.wire = Wiring.unchained ∧ chainRun.edge = EdgeState.reset ∧
      chainRun.spi = SpiState.reset chainRun.spiCfg ∧ plainRun.spi = SpiState.reset plainRun.spiCfg ∧
      ¬ SpiCfg.timeoutActive chainRun.spiCfg ∧ (∀ x ∈ [1, 1, 0, 3], x < 2 ^ chainRun.par.w) ∧
      ([1, 1, 0, 3].head? ≠ some 0 ∨ chainRun.spiCfg.clockPolarity = false) ∧
      chainRun.input = edgeCycles [1, 1, 0, 3] ++ [] ∧ plainRun.input = spiCycles [1, 1, 0, 3] ++ [] :=
  ⟨good_of_checks chainRun (by decide) (by decide) (by decide), good_of_checks plainRun (by decide) (by decide) (by decide), rfl, rfl,
    rfl, rfl, rfl, rfl, rfl, by simp [SpiCfg.timeoutActive, chainRun, free], by decide, by decide, rfl, rfl⟩

end Sys2Proof.Tests
end

section
/-! # The bus accessor (40_bus_and_tick.md)

What `channel` and `value` read of a sample, in the spec's own terms. -/

namespace Sys2Proof.Machine

/-- R110 writes the bit of a channel as `(sample >> c)[0]`. -/
theorem testBit_eq_decide_shiftRight_mod_two (x : Word) (c : Nat) : x.testBit c = decide ((x >>> c) % 2 = 1) := by
  rw [Nat.shiftRight_eq_div_pow, Nat.testBit_eq_decide_div_mod_eq]

/-- R111: a word that fits the `W` wires is read unchanged. -/
theorem value_of_lt {p : Params} {x : Word} (h : x < 2 ^ p.w) : value p x = x :=
  trunc_of_lt h

/-- Settles O4: an index in range reads its bit, and the truncation to `W` wires loses nothing of a `W`-bit sample. -/
theorem busAccessorReadsBits : Obligations.BusAccessorReadsBits := by
  intro p x
  constructor
  · intro c hc
    rw [channel_of_lt x hc, testBit_eq_decide_shiftRight_mod_two]
  · exact value_of_lt

end Sys2Proof.Machine
end

section
/-! # The EDGE unit (41_edge_filter.md)

What a sample that fits the `W` wires does: the operation it selects, and the meaning of each operation on it. -/

namespace Sys2Proof.Machine

/-- Bit `d` of a `W`-bit sample compares the sample itself with `last_sample` (R111). -/
theorem flagD_of_lt {p : Params} {e : EdgeState} {x : Word} (h : x < 2 ^ p.w) :
    flagD p e x = decide (x ^^^ e.lastSample ≠ 0) := by
  rw [flagD, value_of_lt h]

/-- The operation a `W`-bit sample selects (R88, R130). -/
theorem decodeFE_selFE_of_lt {p : Params} {e : EdgeState} {x : Word} (h : x < 2 ^ p.w) :
    decodeFE (selFE p e x) = if x ^^^ e.lastSample ≠ 0 then .emit else .hold := by
  simp only [decodeFE_selFE, flagD_of_lt h, decide_eq_true_eq]

/-- E.HOLD on a `W`-bit sample (R131). -/
theorem execEHold_of_lt {s : State} {x : Word} (h : x < 2 ^ s.par.w) :
    execEHold x s = .next { s with edge := ⟨x⟩ } := by
  rw [execEHold, value_of_lt h]

/-- E.EMIT on a `W`-bit sample (R132). -/
theorem execEEmit_of_lt {s : State} {x : Word} (h : x < 2 ^ s.par.w) :
    execEEmit x s = .next { s with edge := ⟨x⟩, edgeOut := some x } := by
  rw [execEEmit, value_of_lt h]

/-- A tick of EDGE runs the operation selected by the state at its start; no output of an earlier cycle is left (R113). -/
theorem execTick_edge (s : State) (x : Word) :
    execTick .edge x s = runEdgeOp (decodeFE (selFE s.par s.edge x)) x { s with edgeOut := none } := rfl

/-- Settles O13: the selector word's one bit is the test, and no bit of the sample is cut off. -/
theorem eEmitEmitsTheNewSample : Obligations.EEmitEmitsTheNewSample := by
  intro s x hx
  constructor
  · rw [decodeFE_selFE_of_lt hx]
    split <;> simp [*]
  · exact execEEmit_of_lt hx

/-- Settles O14: E.EMIT where the sample differs from the one before, E.HOLD where it does not; both write `last_sample`. -/
theorem edgeTickIsItsProcedure : Obligations.EdgeTickIsItsProcedure := by
  intro s x hx
  rw [exec_tick, execTick_edge, decodeFE_selFE_of_lt hx]
  by_cases hd : x ^^^ s.edge.lastSample ≠ 0
  · rw [if_pos hd, if_pos hd]
    exact execEEmit_of_lt (s := { s with edgeOut := none }) hx
  · rw [if_neg hd, if_neg hd]
    exact execEHold_of_lt (s := { s with edgeOut := none }) hx

end Sys2Proof.Machine
end

section
/-! # The selection of the UART operations (42_uart_framer.md, 30_encoding.md R86, R89)

Which operation a tick selects, as the rule of each operation words it. -/

namespace Sys2Proof

theorem UartCfg.legal_iff {p : Params} {c : UartCfg} :
    c.legal p = true ↔ 1 ≤ c.period ∧ c.channel < p.w ∧ c.nbBits ≤ p.wordW := by
  simp [UartCfg.legal, and_assoc]

end Sys2Proof

namespace Sys2Proof.Machine

@[simp] theorem flagS_eq_true {u : UartState} : flagS u = true ↔ 0 < u.skip := decide_eq_true_iff

@[simp] theorem flagC_eq_true {c : UartCfg} {u : UartState} : flagC c u = true ↔ u.bit < c.nbBits := decide_eq_true_iff

@[simp] theorem flagRegZero_eq_true {u : UartState} : flagRegZero u = true ↔ u.reg = 0 := decide_eq_true_iff

/-- When a UART operation is to be selected, as the headings of R144 to R154 say it. -/
def uartOpTest (c : UartCfg) (u : UartState) (i : Bool) : UartOp → Prop
  | .skip => u.skip > 0
  | .idle => u.skip = 0 ∧ u.mode = .idle ∧ i = true
  | .start => u.skip = 0 ∧ u.mode = .idle ∧ i = false
  | .data => u.skip = 0 ∧ u.mode = .shift ∧ u.bit < c.nbBits
  | .stop => u.skip = 0 ∧ u.mode = .shift ∧ ¬ u.bit < c.nbBits ∧ i = true
  | .brk => u.skip = 0 ∧ u.mode = .shift ∧ ¬ u.bit < c.nbBits ∧ i = false ∧ u.reg = 0
  | .ferr => u.skip = 0 ∧ u.mode = .shift ∧ ¬ u.bit < c.nbBits ∧ i = false ∧ u.reg ≠ 0
  | .bwait => u.skip = 0 ∧ u.mode = .brk ∧ i = false
  | .brec => u.skip = 0 ∧ u.mode = .brk ∧ i = true
  | .fwait => u.skip = 0 ∧ u.mode = .frameErr ∧ i = false
  | .frec => u.skip = 0 ∧ u.mode = .frameErr ∧ i = true

section Selection

variable (c : UartCfg) (u : UartState) (i : Bool)

theorem decodeFU_fuWord_of_skip_pos (h : 0 < u.skip) : decodeFU (fuWord c u i) = .skip := by
  rw [decodeFU_fuWord, if_pos (flagS_eq_true.mpr h)]

/-- An operation whose test holds is the one selected: the tests exclude each other. -/
theorem decodeFU_fuWord_of_test {o : UartOp} (h : uartOpTest c u i o) : decodeFU (fuWord c u i) = o := by
  cases o with
  | skip => exact decodeFU_fuWord_of_skip_pos c u i h
  | _ =>
    obtain ⟨hs, hm, hrest⟩ := h
    simp [decodeFU_fuWord, hs, hm, hrest]

/-- The test of the selected operation holds: the tests leave no case out. -/
theorem uartOpTest_decodeFU_fuWord : uartOpTest c u i (decodeFU (fuWord c u i)) := by
  rcases Nat.eq_zero_or_pos u.skip with hs | hs
  · cases hm : u.mode with
    | shift =>
      by_cases hb : u.bit < c.nbBits
      · simp [decodeFU_fuWord, uartOpTest, hs, hm, hb]
      · by_cases hr : u.reg = 0 <;> cases i <;> simp [decodeFU_fuWord, uartOpTest, hs, hm, hb, hr]
    | _ => cases i <;> simp [decodeFU_fuWord, uartOpTest, hs, hm]
  · rw [decodeFU_fuWord_of_skip_pos c u i hs]
    exact hs

/-- The selector word selects an operation exactly when its test holds. -/
theorem decodeFU_fuWord_eq_iff (o : UartOp) : decodeFU (fuWord c u i) = o ↔ uartOpTest c u i o :=
  ⟨fun h => h ▸ uartOpTest_decodeFU_fuWord c u i, decodeFU_fuWord_of_test c u i⟩

end Selection

end Sys2Proof.Machine
end

section
/-! # The UART operations one by one (42_uart_framer.md R144 to R154)

The effect of the operations that read a value which may be missing, where it is there; then the statements on single
operations. -/

namespace Sys2Proof.Machine

/-- U.SKIP where the decrement does not underflow (R144). -/
theorem execUSkip_of_pos {s : State} (h : 0 < s.uart.skip) :
    execUSkip s = .next { s with uart := { s.uart with skip := s.uart.skip - 1 } } :=
  execUSkip_eq_next.mpr ⟨s.uart.skip - 1, by omega, rfl⟩

/-- U.START under a record with a period (R146). -/
theorem execUStart_of_pos {s : State} (h : 1 ≤ s.uartCfg.period) :
    execUStart s = .next { s with uart := ⟨.shift, 0, 0, startDelay s.uartCfg.period⟩ } :=
  execUStart_eq_next.mpr ⟨h, rfl⟩

/-- U.DATA under a legal record (R147). -/
theorem execUData_of_legal {s : State} (x : Word) (h : s.uartCfg.legal s.par = true) :
    execUData x s =
      .next { s with
        uart := { s.uart with
          reg := orBit s.par s.uart.reg (x.testBit s.uartCfg.channel) s.uart.bit
          bit := s.uart.bit + 1
          skip := s.uartCfg.period - 1 } } := by
  obtain ⟨hp, hc, -⟩ := UartCfg.legal_iff.mp h
  exact execUData_eq_next.mpr ⟨hc, hp, rfl⟩

/-- A bit ORed in just above the bits of a register is added at that place. -/
theorem or_shiftLeft_toNat {reg bit : Nat} (i : Bool) (h : reg < 2 ^ bit) :
    reg ||| (i.toNat <<< bit) = reg + i.toNat * 2 ^ bit := by
  rw [Nat.shiftLeft_eq, Nat.mul_comm, Nat.or_comm, ← Nat.two_pow_add_eq_or_of_lt h, Nat.add_comm]

/-- A bit ORed in below the register's width is not cut off: the register then holds the bits it had and the new one. -/
theorem orBit_eq_add {p : Params} {reg : Word} {bit : Nat} (i : Bool) (hreg : reg < 2 ^ bit) (hbit : bit < p.wordW) :
    orBit p reg i bit = reg + i.toNat * 2 ^ bit := by
  have hfit : reg + i.toNat * 2 ^ bit < 2 ^ (bit + 1) := calc
    _ < 2 ^ bit + 1 * 2 ^ bit := Nat.add_lt_add_of_lt_of_le hreg (Nat.mul_le_mul_right _ (Bool.toNat_le i))
    _ = 2 ^ (bit + 1) := by ring
  have hwidth : 2 ^ (bit + 1) ≤ 2 ^ p.wordW := Nat.pow_le_pow_right (by omega) hbit
  rw [orBit, or_shiftLeft_toNat i hreg]
  exact trunc_of_lt (hfit.trans_le hwidth)

/-- Settles O17: bit `s` of the selector word alone selects U.SKIP, and `skip > 0` is what the decrement needs. -/
theorem uSkipDecrementsSkip : Obligations.USkipDecrementsSkip :=
  ⟨fun c u i => decodeFU_fuWord_eq_iff c u i .skip, fun _ hs => execUSkip_of_pos hs⟩

/-- Settles O18: the selection is the test of R145, and the operation's meaning is the state it is given. -/
theorem uIdleChangesNothing : Obligations.UIdleChangesNothing :=
  ⟨fun c u i => decodeFU_fuWord_eq_iff c u i .idle, exec_uIdle⟩

/-- Settles O19: a period of at least 1 gives the start delay a value. -/
theorem uStartBeginsAFrame : Obligations.UStartBeginsAFrame :=
  ⟨fun c u i => decodeFU_fuWord_eq_iff c u i .start, fun _ hp => execUStart_of_pos hp⟩

/-- Settles O20: under a legal record the channel and `period - 1` have values, and `bit < nb_bits <= WORD_W` keeps the ORed
bit inside the register. -/
theorem uDataCollectsOneBit : Obligations.UDataCollectsOneBit := by
  refine ⟨fun c u i => decodeFU_fuWord_eq_iff c u i .data, fun s x hl => execUData_of_legal x hl, ?_⟩
  intro s i hl hbit hreg
  obtain ⟨-, -, hn⟩ := UartCfg.legal_iff.mp hl
  exact orBit_eq_add i hreg (hbit.trans_le hn)

/-- Settles O24: the two waiting operations are selected by a low line in their own mode. -/
theorem lowLineKeepsWaiting : Obligations.LowLineKeepsWaiting :=
  ⟨fun c u i => ⟨decodeFU_fuWord_eq_iff c u i .bwait, decodeFU_fuWord_eq_iff c u i .fwait⟩,
    fun s => ⟨exec_uBwait s, exec_uFwait s⟩⟩

/-- Settles O25: the two recoveries are selected by a high line in their own mode, and both are `recoverIdle` (R207). -/
theorem highLineRecovers : Obligations.HighLineRecovers := by
  refine ⟨fun c u i => ⟨decodeFU_fuWord_eq_iff c u i .brec, decodeFU_fuWord_eq_iff c u i .frec⟩, fun s => ?_⟩
  rw [exec_uBrec, exec_uFrec, recoverIdle_eq]
  exact ⟨rfl, rfl⟩

end Sys2Proof.Machine
end

section
/-! # A tick of the UART (42_uart_framer.md R140, R141, R155)

What a tick reads of its sample, and what it does to the mode. -/

namespace Sys2Proof.Machine

/-- A tick of UART reads its channel and runs the operation selected by the bit found there. -/
theorem execTick_uart (s : State) (x : Word) :
    execTick .uart x s =
      withValue (channel s.par x s.uartCfg.channel) .channelOutOfRange fun i =>
        runUartOp (decodeFU (fuWord s.uartCfg s.uart i)) x (s.clearOut .uart) := by
  simp only [execTick, uartTick, selFU, clearOut_par, clearOut_uartCfg, clearOut_uartState]
  cases channel s.par x s.uartCfg.channel <;> rfl

theorem channel_congr {x y : Word} {c : Nat} (p : Params) (h : x.testBit c = y.testBit c) :
    channel p x c = channel p y c := by
  rw [channel, channel, h]

/-- U.DATA reads the sampled bit and nothing else of the sample. -/
theorem execUData_congr {s : State} {x y : Word}
    (h : channel s.par x s.uartCfg.channel = channel s.par y s.uartCfg.channel) : execUData x s = execUData y s := by
  rw [execUData, execUData, h]

/-- U.DATA is the only UART operation that reads the sample. -/
theorem runUartOp_of_ne_data {o : UartOp} (h : o ≠ .data) (x y : Word) (s : State) :
    runUartOp o x s = runUartOp o y s := by
  cases o with
  | data => exact absurd rfl h
  | _ => rfl

/-- No UART operation reads more of the sample than the bit of the configured channel. -/
theorem runUartOp_congr {s : State} {x y : Word} (o : UartOp)
    (h : channel s.par x s.uartCfg.channel = channel s.par y s.uartCfg.channel) : runUartOp o x s = runUartOp o y s := by
  by_cases ho : o = .data
  · subst ho
    exact execUData_congr h
  · exact runUartOp_of_ne_data ho x y s

/-- Settles O28: selection and U.DATA read the channel alone; with `skip > 0` U.SKIP is selected whatever the bit is, and it
reads nothing. -/
theorem uartReadsOnlyItsChannel : Obligations.UartReadsOnlyItsChannel := by
  intro s x y
  rw [exec_tick, exec_tick, execTick_uart, execTick_uart]
  constructor
  · intro hbit
    have hch := channel_congr s.par hbit
    have hrun (o : UartOp) : runUartOp o x (s.clearOut .uart) = runUartOp o y (s.clearOut .uart) :=
      runUartOp_congr o (by simpa using hch)
    simp only [hch, hrun]
  · intro hc hs
    rw [channel_of_lt x hc, channel_of_lt y hc, withValue_some, withValue_some,
      decodeFU_fuWord_of_skip_pos _ _ _ hs, decodeFU_fuWord_of_skip_pos _ _ _ hs]
    rfl

/-- The mode a UART operation leaves, of the mode it finds (R144 to R154). -/
def modeAfter (m : UMode) : UartOp → UMode
  | .start => .shift
  | .stop | .brec | .frec => .idle
  | .brk => .brk
  | .ferr => .frameErr
  | .skip | .idle | .data | .bwait | .fwait => m

theorem runUartOp_mode {o : UartOp} {x : Word} {s t : State} (h : runUartOp o x s = .next t) :
    t.uart.mode = modeAfter s.uart.mode o := by
  cases o with
  | skip =>
    obtain ⟨k, -, rfl⟩ := execUSkip_eq_next.mp h
    rfl
  | start =>
    obtain ⟨-, rfl⟩ := execUStart_eq_next.mp h
    rfl
  | data =>
    obtain ⟨-, -, rfl⟩ := execUData_eq_next.mp h
    rfl
  | _ =>
    cases h
    rfl

/-- The mode after a UART tick is the one its selected operation leaves. -/
theorem execTick_uart_mode {s t : State} {x : Word} (h : execTick .uart x s = .next t) :
    t.uart.mode = modeAfter s.uart.mode (decodeFU (fuWord s.uartCfg s.uart (x.testBit s.uartCfg.channel))) := by
  obtain ⟨-, hrun⟩ := execTick_uart_eq_next.mp h
  simpa using runUartOp_mode hrun

/-- Settles O29: the selected operation fixes the mode after the tick, and its test the mode before. -/
theorem modeTransitionsAreTheSixEdges : Obligations.ModeTransitionsAreTheSixEdges := by
  intro s t x w hw ht
  obtain ⟨-, rfl⟩ := selFU_eq_some hw
  have hafter := execTick_uart_mode ht
  have htest := uartOpTest_decodeFU_fuWord s.uartCfg s.uart (x.testBit s.uartCfg.channel)
  generalize decodeFU (fuWord s.uartCfg s.uart (x.testBit s.uartCfg.channel)) = o at hafter htest ⊢
  cases o with
  | skip | idle | data | bwait | fwait => simp [hafter, modeAfter]
  | _ =>
    obtain ⟨-, hbefore, -⟩ := htest
    simp [hbefore, hafter, modeAfter]

end Sys2Proof.Machine
end

section
/-! # The latch of the SPI framer (43_spi_framer.md R177)

Phase 4 is decoded without looking at the selector word, so the gate bit of it has no part in the selection. -/

namespace Sys2Proof.Machine

/-- Settles O40: phase 4 selects S.LATCH on every word, and with both channels in range the latch has its two levels to
store. -/
theorem sLatchStoresTheLevels : Obligations.SLatchStoresTheLevels := by
  refine ⟨decodeFS_four, fun s x hclock hframe => ?_⟩
  rw [exec_sLatch]
  exact execSLatch_eq_next.mpr ⟨hclock, hframe, rfl⟩

end Sys2Proof.Machine
end

section
/-! # Instruction words (30_encoding.md R80 to R100)

The packed records (R83, R99) are read back field by field; an instruction word splits into its low byte and its operand;
the decoders agree with the opcode table. -/

namespace Sys2Proof

/-! ## Packed records -/

theorem toNat_lt_two_pow_one (b : Bool) : b.toNat < 2 ^ 1 := Bool.toNat_lt b

@[simp] theorem lowField_one_toNat (b : Bool) : lowField 1 b.toNat = b.toNat :=
  Nat.mod_eq_of_lt (toNat_lt_two_pow_one b)

@[simp] theorem toNat_beq_one (b : Bool) : (b.toNat == 1) = b := by cases b <;> rfl

/-- What a UART record gives the decoder: each field fits its width in the R83 layout. -/
theorem UartCfg.fields_lt {p : Params} {c : UartCfg} (hl : c.legal p = true) (hf : c.fits p = true) :
    c.period < 2 ^ p.perW ∧ c.nbBits < 2 ^ p.cntW ∧ c.channel < 2 ^ p.chW := by
  obtain ⟨-, hch, hn⟩ := UartCfg.legal_iff.mp hl
  exact ⟨of_decide_eq_true hf, Params.lt_cntW hn, Params.lt_chW hch⟩

theorem UartCfg.unpack_pack {p : Params} {c : UartCfg} (hl : c.legal p = true) (hf : c.fits p = true) :
    UartCfg.unpack p (c.pack p) = c := by
  obtain ⟨hp, hn, -⟩ := UartCfg.fields_lt hl hf
  simp only [UartCfg.unpack, UartCfg.pack, lowField_packField _ hp, restFields_packField _ hp, lowField_packField _ hn,
    restFields_packField _ hn]

theorem UartCfg.pack_lt {p : Params} {c : UartCfg} (hl : c.legal p = true) (hf : c.fits p = true) :
    c.pack p < 2 ^ UartCfg.packedBits p := by
  obtain ⟨hp, hn, hch⟩ := UartCfg.fields_lt hl hf
  rw [UartCfg.packedBits, Nat.add_assoc]
  exact packField_lt hp (packField_lt hn hch)

theorem SpiCfg.legal_iff {p : Params} {c : SpiCfg} :
    c.legal p = true ↔
      c.clockChannel < p.w ∧ c.dataChannel < p.w ∧ c.frameChannel < p.w ∧ 1 ≤ c.nbBits ∧ c.nbBits ≤ p.wordW := by
  simp [SpiCfg.legal, and_assoc]

/-- Each field of an SPI record that is wider than a bit fits its width in the R99 layout. -/
theorem SpiCfg.fields_lt {p : Params} {c : SpiCfg} (hl : c.legal p = true) (hf : c.fits p = true) :
    c.clockChannel < 2 ^ p.chW ∧ c.dataChannel < 2 ^ p.chW ∧ c.frameChannel < 2 ^ p.chW ∧
      c.frameTimeout < 2 ^ p.toW ∧ c.nbBits < 2 ^ p.cntW := by
  obtain ⟨hk, hd, hfr, -, hn⟩ := SpiCfg.legal_iff.mp hl
  exact ⟨Params.lt_chW hk, Params.lt_chW hd, Params.lt_chW hfr, of_decide_eq_true hf, Params.lt_cntW hn⟩

theorem SpiCfg.unpack_pack {p : Params} {c : SpiCfg} (hl : c.legal p = true) (hf : c.fits p = true) :
    SpiCfg.unpack p (c.pack p) = c := by
  obtain ⟨hk, hd, hfr, hto, hn⟩ := SpiCfg.fields_lt hl hf
  have hbit := toNat_lt_two_pow_one
  simp only [SpiCfg.unpack, SpiCfg.pack, lowField_packField _ hk, restFields_packField _ hk, lowField_packField _ hd,
    restFields_packField _ hd, lowField_packField _ hfr, restFields_packField _ hfr, lowField_packField _ hto,
    restFields_packField _ hto, lowField_packField _ hn, restFields_packField _ hn, lowField_packField _ (hbit _),
    restFields_packField _ (hbit _), lowField_one_toNat, toNat_beq_one]

theorem SpiCfg.pack_lt {p : Params} {c : SpiCfg} (hl : c.legal p = true) (hf : c.fits p = true) :
    c.pack p < 2 ^ SpiCfg.packedBits p := by
  obtain ⟨hk, hd, hfr, hto, hn⟩ := SpiCfg.fields_lt hl hf
  have hbit := toNat_lt_two_pow_one
  have hwidth : SpiCfg.packedBits p =
      p.chW + (p.chW + (p.chW + (1 + (1 + (1 + (p.toW + (p.cntW + (1 + 1)))))))) := by
    rw [SpiCfg.packedBits]
    omega
  rw [hwidth]
  exact packField_lt hk (packField_lt hd (packField_lt hfr (packField_lt (hbit _) (packField_lt (hbit _)
    (packField_lt (hbit _) (packField_lt hto (packField_lt hn (packField_lt (hbit _) (hbit _)))))))))

/-- Reading back the record of a RESET, whichever unit it is for. -/
theorem decodeReset_operand {p : Params} {c : UnitCfg} (hl : c.legal p = true) (hf : c.fits p = true) :
    decodeReset p c.unit ((Instr.reset c).operand p) = .ok (.reset c) := by
  cases c with
  | edge => rfl
  | uart c => simp [decodeReset, UnitCfg.unit, Instr.operand, UartCfg.pack_lt hl hf, UartCfg.unpack_pack hl hf]
  | spi c => simp [decodeReset, UnitCfg.unit, Instr.operand, SpiCfg.pack_lt hl hf, SpiCfg.unpack_pack hl hf]

/-! ## Instruction words -/

theorem Instr.matchWord_lt (i : Instr) : i.matchWord < 256 := by cases i <;> simp [Instr.matchWord]

/-- The low byte of an operation's word is its pattern. -/
@[simp] theorem encode_mod (p : Params) (i : Instr) : encode p i % 256 = i.matchWord := by
  rw [encode, Nat.add_mul_mod_self_left, Nat.mod_eq_of_lt i.matchWord_lt]

/-- Above the low byte of an operation's word stands its operand. -/
@[simp] theorem encode_div (p : Params) (i : Instr) : encode p i / 256 = i.operand p := by
  rw [encode, Nat.add_mul_div_left _ _ (by decide), Nat.div_eq_of_lt i.matchWord_lt, Nat.zero_add]

theorem withOperand_sample {p : Params} {x : Word} (i : Instr) (h : sampleOk p x = true) :
    withOperand p true x i = .ok i := by
  simp [withOperand, h]

/-- Settles O2: the low byte selects the operation's row, and the operand above it is read back as the sample, the packed record
or nothing. -/
theorem decodeOfEncodeIsIdentity : Obligations.DecodeOfEncodeIsIdentity := by
  intro p i _ hwf
  cases i with
  | reset c =>
    obtain ⟨hl, hf⟩ := Bool.and_eq_true_iff.mp hwf
    simpa [decode, Instr.place, Instr.matchWord, decodePORT] using decodeReset_operand hl hf
  | tick u x | eHold x | eEmit x | uData x | sShift x | sEmit x | sLatch x =>
    simp [decode, Instr.place, Instr.matchWord, Instr.operand, decodePORT, decodeFE, EdgeOp.instr, decodeFU, UartOp.instr,
      decodeFS, SpiOp.instr, withOperand_sample _ hwf]
  | _ =>
    simp [decode, Instr.place, Instr.matchWord, Instr.operand, decodePORT, decodeFU, UartOp.instr, decodeFS, SpiOp.instr,
      withOperand]

/-- Settles O1: the decoder run on the fourteen words. -/
theorem wordsOfEveryFormatDecode : Obligations.WordsOfEveryFormatDecode := by
  unfold Obligations.WordsOfEveryFormatDecode
  decide

/-- Settles O3: a finite check, one row of the opcode table after the other, on all words of the row's format. -/
theorem decodersFollowMatchAndMask : Obligations.DecodersFollowMatchAndMask := by
  refine ⟨fun w o => ?_, fun w o ph => ?_, fun w o => ?_⟩
  · revert w
    cases o <;> decide
  · revert w
    cases o <;> cases ph <;> decide
  · revert w
    cases o <;> decide

end Sys2Proof
end

section
/-! # The port of a unit (40_bus_and_tick.md R113 to R115, 10_state.md R50 to R52)

RESET, the idle cycle, what the pins select, and the operations a TICK runs. -/

namespace Sys2Proof.Machine

theorem resetAccepts_iff {p : Params} {k : UnitCfg} : resetAccepts p k = true ↔ k.legal p = true ∧ k.fits p = true :=
  Bool.and_eq_true_iff

theorem execReset_of_accepts {k : UnitCfg} {s : State} (h : resetAccepts s.par k = true) :
    execReset k s = .next ((s.clearOut k.unit).construct k) :=
  if_pos h

theorem execReset_of_not_legal {k : UnitCfg} {s : State} (h : ¬ k.legal s.par = true) :
    execReset k s = .refused (.illegalConfiguration k.unit) :=
  if_neg fun ha => h (resetAccepts_iff.mp ha).1

/-- Settles O5: an accepted record is the unit's new configuration and its state is the reset state. -/
theorem resetConstructsTheUnit : Obligations.ResetConstructsTheUnit :=
  ⟨fun _ => execReset_of_accepts rfl, fun _ _ hl hf => execReset_of_accepts (resetAccepts_iff.mpr ⟨hl, hf⟩),
    fun _ _ hl hf => execReset_of_accepts (resetAccepts_iff.mpr ⟨hl, hf⟩)⟩

/-- Settles O6: each of the rows of R8 violated makes the record illegal. -/
theorem resetRefusesIllegalRecords : Obligations.ResetRefusesIllegalRecords := by
  constructor
  · intro s c hbad
    refine execReset_of_not_legal (k := .uart c) fun hl => ?_
    obtain ⟨hp, hch, hn⟩ := UartCfg.legal_iff.mp hl
    omega
  · intro s c hbad
    refine execReset_of_not_legal (k := .spi c) fun hl => ?_
    obtain ⟨hk, hd, hf, hn, hw⟩ := SpiCfg.legal_iff.mp hl
    omega

/-- Settles O7: the idle cycle takes away what the unit presented and does nothing else. -/
theorem idleCycleChangesNothing : Obligations.IdleCycleChangesNothing := by
  intro s
  simp only [exec_idleCycle, clearOut_edge, clearOut_uart, clearOut_spi, and_self]

/-- Settles O48: `State.reset` is built from the reset states of the three units. -/
theorem resetLeavesTheStatedValues : Obligations.ResetLeavesTheStatedValues :=
  ⟨rfl, rfl, rfl, rfl, rfl, rfl, rfl⟩

theorem fetch_of_rst {c : Cycle} {u : UnitId} {k : UnitCfg} (s : State) (h : c.rst u = some k) :
    fetch c u s = .reset k := by
  simp [fetch_eq, h]

theorem fetch_of_tick {c : Cycle} {u : UnitId} {s : State} {x : Word} (hr : c.rst u = none)
    (ht : tickInput c u s = some x) : fetch c u s = .tick u x := by
  simp [fetch_eq, hr, ht]

theorem fetch_of_no_tick {c : Cycle} {u : UnitId} {s : State} (hr : c.rst u = none) (ht : tickInput c u s = none) :
    fetch c u s = .idleCycle u := by
  simp [fetch_eq, hr, ht]

theorem tickInput_of_host {c : Cycle} {u : UnitId} {s : State} (h : s.wire.source u = .host) :
    tickInput c u s = c.hostTick u := by
  simp [tickInput, h]

theorem tickInput_of_unit {c : Cycle} {u v : UnitId} {s : State} (h : s.wire.source u = .unit v) :
    tickInput c u s = s.out v := by
  simp [tickInput, h]

/-- Settles O46: rst comes first, and the sample pins are the host's or the source's outputs. -/
theorem pinsSelectTheOperation : Obligations.PinsSelectTheOperation := by
  intro c u s
  refine ⟨fun k => fetch_of_rst s, fun hr hsrc => ?_, fun v hr hsrc => ?_⟩
  · exact ⟨fun x hx => fetch_of_tick hr ((tickInput_of_host hsrc).trans hx),
      fun hx => fetch_of_no_tick hr ((tickInput_of_host hsrc).trans hx)⟩
  · exact ⟨fun y hy => fetch_of_tick hr ((tickInput_of_unit hsrc).trans hy),
      fun hy => fetch_of_no_tick hr ((tickInput_of_unit hsrc).trans hy)⟩

/-- Sequencing looks at the second part on the states the first part answers. -/
theorem andThen_congr {r : Result} {f g : State → Result} (h : ∀ s, r = .next s → f s = g s) :
    andThen r f = andThen r g := by
  cases r with
  | next s => exact h s rfl
  | _ => rfl

/-- The four phases grouped from the left, as a loop over them runs. -/
theorem spiPhases_eq_foldl (w : BitVec 6) (x : Word) (s : State) :
    spiPhases w x s =
      [Phase.one, .two, .three, .four].foldl (fun r ph => andThen r (runSpiOp (decodeFS ph w) x)) (.next s) := by
  simp only [spiPhases, List.foldl_cons, List.foldl_nil, andThen_next, andThen_assoc]

/-- Settles O8: a TICK runs the meanings that `exec` gives the selected instructions. -/
theorem tickRunsTheSelectedOperations : Obligations.TickRunsTheSelectedOperations := by
  intro s x
  refine ⟨?_, fun w hw => ?_, fun w hw => ?_⟩
  · rw [exec_tick, execTick_edge, runEdgeOp_eq_exec]
  · rw [exec_tick, ← clearOut_uart, ← runUartOp_eq_exec]
    simp only [execTick, uartTick, clearOut_par, clearOut_uartCfg, clearOut_uartState, hw, withValue_some]
  · rw [exec_tick, ← clearOut_spi]
    simp only [execTick, spiTick, clearOut_par, clearOut_spiCfg, clearOut_spiState, hw, withValue_some]
    rw [spiPhases_eq_foldl]
    congr 1
    funext r ph
    refine andThen_congr fun t _ => ?_
    cases decodeFS ph w with
    | none => rfl
    | some o => exact runSpiOp_eq_exec t x o

end Sys2Proof.Machine
end

section
/-! # Missing values (93_implementation_defined.md U1, U3, U11)

Where a tick or a single operation has no value to go on with. -/

namespace Sys2Proof.Machine

/-- An operation that refuses nothing but a missing value refuses exactly where the value is missing. -/
theorem withValue_refused_iff {α : Type} {v : Option α} {why : Refusal} {f : α → Result}
    (hf : ∀ a, ∃ t, f a = .next t) :
    withValue v why f = .refused why ↔ v = none := by
  cases v with
  | none => simp
  | some a =>
    obtain ⟨t, ht⟩ := hf a
    simp [ht]

theorem channel_eq_none {p : Params} {x : Word} {c : Nat} : channel p x c = none ↔ p.w ≤ c := by
  simp [channel]

theorem natPred_eq_none {n : Nat} : natPred n = none ↔ n = 0 := by
  cases n <;> simp [natPred]

theorem startSkip_eq_none {c : UartCfg} : startSkip c = none ↔ c.period = 0 := by
  simp [startSkip, natPred_eq_none]

/-- The selector word of an SPI tick is missing where a channel is. -/
theorem selFS_eq_none {p : Params} {c : SpiCfg} {u : SpiState} {x : Word}
    (h : p.w ≤ c.clockChannel ∨ p.w ≤ c.dataChannel ∨ p.w ≤ c.frameChannel) : selFS p c u x = none := by
  unfold selFS
  rcases h with h | h | h <;> simp only [channel_of_le x h]
  · cases channel p x c.clockChannel <;> cases channel p x c.frameChannel <;> rfl
  · cases channel p x c.clockChannel <;> rfl

/-- U.DATA looks at the channel first, then at the period. -/
theorem execUData_refused_iff {x : Word} {s : State} {r : Refusal} :
    execUData x s = .refused r ↔
      (s.par.w ≤ s.uartCfg.channel ∧ r = .channelOutOfRange) ∨
        (s.uartCfg.channel < s.par.w ∧ s.uartCfg.period = 0 ∧ r = .belowZero) := by
  rcases Nat.lt_or_ge s.uartCfg.channel s.par.w with hc | hc
  · cases hp : s.uartCfg.period <;> simp [execUData, channel_of_lt x hc, dataSkip, natPred, hp, hc, eq_comm]
  · simp [execUData, channel_of_le x hc, hc, eq_comm]

/-- Settles O10: a TICK computes its selector word first, and that needs every channel. -/
theorem tickRefusesMissingChannels : Obligations.TickRefusesMissingChannels := by
  intro s x
  constructor
  · intro h
    rw [exec_tick, execTick_uart, channel_of_le x h, withValue_none]
  · intro h
    simp [execTick, spiTick, selFS_eq_none h]

/-- Settles O11: each of the operations refuses exactly where its one value is missing; U.DATA, which reads two, looks at the
channel first. -/
theorem operationsRefuseMissingValues : Obligations.OperationsRefuseMissingValues := by
  refine ⟨fun s => ?_, fun s => ?_, fun s x => ?_, fun s x => ?_, fun s => ?_, fun s x => ⟨?_, ?_, ?_⟩⟩
  · exact (withValue_refused_iff fun _ => ⟨_, rfl⟩).trans natPred_eq_none
  · exact (withValue_refused_iff fun _ => ⟨_, rfl⟩).trans startSkip_eq_none
  · simp [execUData_refused_iff]
  · simp [execUData_refused_iff]
  · exact (withValue_refused_iff fun _ => ⟨_, rfl⟩).trans natPred_eq_none
  · exact (withValue_refused_iff fun _ => ⟨_, rfl⟩).trans channel_eq_none
  · exact (withValue_refused_iff fun _ => ⟨_, rfl⟩).trans channel_eq_none
  · rcases Nat.lt_or_ge s.spiCfg.clockChannel s.par.w with hc | hc
    · simp [execSLatch, channel_of_lt x hc, withValue_refused_iff, channel_eq_none, hc]
    · simp [execSLatch, channel_of_le x hc, hc]

end Sys2Proof.Machine
end

section
/-! # E.HOLD (41_edge_filter.md R131) -/

namespace Sys2Proof.Machine

theorem decodeFE_selFE_eq_hold {p : Params} {e : EdgeState} {x : Word} (h : x < 2 ^ p.w) :
    decodeFE (selFE p e x) = .hold ↔ x ^^^ e.lastSample = 0 := by
  rw [decodeFE_selFE_of_lt h]
  split <;> simp_all

/-- Settles O12: the selector word's one bit is 0 exactly on an equal sample, which leaves `last_sample` as it was. -/
theorem eHoldKeepsTheSample : Obligations.EHoldKeepsTheSample := by
  intro s x hx
  refine ⟨decodeFE_selFE_eq_hold hx, ?_, execEHold_of_lt hx, ?_⟩
  · rw [decodeFE_selFE_eq_hold hx, Nat.xor_zero]
  · rintro rfl
    exact execEHold_of_lt hx

end Sys2Proof.Machine
end

section
/-! # The stop bit and the start delay (42_uart_framer.md R142, R143, R148 to R150) -/

namespace Sys2Proof.Machine

/-- R33 (i), (ii): the register of a UART never exceeds `nb_bits` bits. -/
theorem UartInv.reg_lt_nbBits {c : UartCfg} {u : UartState} (h : UartInv c u) : u.reg < 2 ^ c.nbBits :=
  h.reg_lt.trans_le (Nat.pow_le_pow_right (by decide) h.bit_le)

/-- Settles O21: the test is that of R148, and the invariant bounds the register that is emitted. -/
theorem uStopEmitsTheWord : Obligations.UStopEmitsTheWord :=
  ⟨fun c u i => decodeFU_fuWord_eq_iff c u i .stop, fun _ => rfl, fun _ _ => UartInv.reg_lt_nbBits⟩

/-- Settles O22: the test is that of R149, and the condition is raised as R201 says. -/
theorem uBreakDetectsABreak : Obligations.UBreakDetectsABreak :=
  ⟨fun c u i => decodeFU_fuWord_eq_iff c u i .brk, fun _ => rfl⟩

/-- Settles O23: the test is that of R150, and the condition is raised as R202 says. -/
theorem uFerrDetectsAFrameError : Obligations.UFerrDetectsAFrameError :=
  ⟨fun c u i => decodeFU_fuWord_eq_iff c u i .ferr, fun _ => rfl⟩

theorem startDelay_eq (p : Nat) : startDelay p = (p - 1) + (p - 1) / 2 + p / 4 := by
  simp [startDelay, Nat.shiftRight_eq_div_pow]

/-- R143: the first data bit is looked at after the start bit's period and before the second data bit's. -/
theorem startDelay_bounds {p : Nat} (h : 1 ≤ p) : p - 1 ≤ startDelay p ∧ startDelay p ≤ 2 * p - 2 := by
  rw [startDelay_eq]
  omega

/-- Settles O26: the values are computed, the formula rewrites shifts as divisions, the bounds are linear. -/
theorem startDelayValuesAndBounds : Obligations.StartDelayValuesAndBounds :=
  ⟨by decide, startDelay_eq, fun _ => startDelay_bounds⟩

end Sys2Proof.Machine
end

section
/-! # A UART tick as the procedure of R140, and its one result (R205) -/

namespace Sys2Proof.Machine

/-- The effect of a UART operation on the unit's state record, with its output and its event (R144 to R154). -/
def uartEffect (p : Params) (c : UartCfg) (u : UartState) (i : Bool) : UartOp → UartState × Option Word × Option Event
  | .skip => ({ u with skip := u.skip - 1 }, none, none)
  | .start => (⟨.shift, 0, 0, startDelay c.period⟩, none, none)
  | .data => ({ u with reg := orBit p u.reg i u.bit, bit := u.bit + 1, skip := c.period - 1 }, none, none)
  | .stop => ({ u with mode := .idle }, some u.reg, none)
  | .brk => ({ u with mode := .brk }, none, some .brk)
  | .ferr => ({ u with mode := .frameErr }, none, some .frameErr)
  | .brec | .frec => ({ u with mode := .idle }, none, none)
  | .idle | .bwait | .fwait => (u, none, none)

/-- The nested tests of R140 lead to the effect of the operation whose test holds. -/
theorem uartProcedure_of_test {p : Params} {c : UartCfg} {u : UartState} {i : Bool} {o : UartOp} (h : uartOpTest c u i o) :
    uartProcedure p c u i = uartEffect p c u i o := by
  cases o with
  | skip => exact if_pos h
  | _ =>
    obtain ⟨hs, hm, hrest⟩ := h
    simp [uartProcedure, uartEffect, hs, hm, hrest]

/-- Each operation has its effect under a legal record, U.SKIP where there is something to skip. -/
theorem runUartOp_eq_effect {o : UartOp} {x : Word} {s : State} (hl : s.uartCfg.legal s.par = true)
    (hskip : o = .skip → 0 < s.uart.skip) (hout : s.uartOut = none) (hevent : s.uartEvent = none) :
    runUartOp o x s =
      let r := uartEffect s.par s.uartCfg s.uart (x.testBit s.uartCfg.channel) o
      .next { s with uart := r.1, uartOut := r.2.1, uartEvent := r.2.2 } := by
  obtain ⟨hp, -, -⟩ := UartCfg.legal_iff.mp hl
  cases o with
  | skip => simp [runUartOp, execUSkip_of_pos (hskip rfl), uartEffect, ← hout, ← hevent]
  | start => simp [runUartOp, execUStart_of_pos hp, uartEffect, ← hout, ← hevent]
  | data => simp [runUartOp, execUData_of_legal x hl, uartEffect, ← hout, ← hevent]
  | _ =>
    simp [runUartOp, execUIdle, execUStop, execUBreak, execUFerr, execUBwait, execUBrec, execUFwait, execUFrec,
      raiseCondition_eq, Event.mode, recoverIdle_eq, withMode_eq, State.withUart, uartEffect, ← hout, ← hevent]

/-- Settles O27: a tick has the effect of the operation whose test holds, and so has the procedure. -/
theorem uartTickIsItsProcedure : Obligations.UartTickIsItsProcedure := by
  intro s x hl
  obtain ⟨-, hc, -⟩ := UartCfg.legal_iff.mp hl
  have htest := uartOpTest_decodeFU_fuWord s.uartCfg s.uart (x.testBit s.uartCfg.channel)
  rw [exec_tick, execTick_uart, channel_of_lt x hc, withValue_some, uartProcedure_of_test htest]
  exact runUartOp_eq_effect (s := s.clearOut .uart) hl (fun ho => by rwa [ho] at htest) rfl rfl

/-- The event a UART operation raises (R149, R150). -/
def raisedEvent : UartOp → Option Event
  | .brk => some .brk
  | .ferr => some .frameErr
  | _ => none

/-- What a UART operation writes besides the unit's state record: U.STOP the output, the two conditions their event. -/
theorem runUartOp_frame {o : UartOp} {x : Word} {s t : State} (h : runUartOp o x s = .next t) :
    t = { s with
      uart := t.uart
      uartOut := if o = .stop then some s.uart.reg else s.uartOut
      uartEvent := (raisedEvent o).or s.uartEvent } := by
  cases o with
  | skip =>
    obtain ⟨k, -, rfl⟩ := execUSkip_eq_next.mp h
    rfl
  | start =>
    obtain ⟨-, rfl⟩ := execUStart_eq_next.mp h
    rfl
  | data =>
    obtain ⟨-, -, rfl⟩ := execUData_eq_next.mp h
    rfl
  | _ =>
    cases h
    rfl

theorem runUartOp_out {o : UartOp} {x : Word} {s t : State} (h : runUartOp o x s = .next t) :
    t.uartOut = if o = .stop then some s.uart.reg else s.uartOut :=
  congrArg State.uartOut (runUartOp_frame h)

theorem runUartOp_event {o : UartOp} {x : Word} {s t : State} (h : runUartOp o x s = .next t) :
    t.uartEvent = (raisedEvent o).or s.uartEvent :=
  congrArg State.uartEvent (runUartOp_frame h)

/-- The codes of R81 tell the modes apart. -/
theorem encodeMode_inj {m m' : UMode} : encodeMode m = encodeMode m' ↔ m = m' := by
  cases m <;> cases m' <;> decide

/-- Settles O31: after the tick the unit presents the selected operation's word or event alone. -/
theorem uartTickHasOneResult : Obligations.UartTickHasOneResult := by
  intro s t x w hw ht
  obtain ⟨-, rfl⟩ := selFU_eq_some hw
  obtain ⟨-, hrun⟩ := execTick_uart_eq_next.mp ht
  have hout : t.uartOut = if _ then some s.uart.reg else none := runUartOp_out hrun
  have hevent : t.uartEvent = (raisedEvent _).or none := runUartOp_event hrun
  have hmode (m : UMode) : modePins t = encodeMode m ↔ t.uart.mode = m := encodeMode_inj
  generalize decodeFU (fuWord s.uartCfg s.uart (x.testBit s.uartCfg.channel)) = o at hout hevent ⊢
  refine ⟨?_, ?_, ?_, ?_, ?_, ?_, hmode .idle, hmode .shift, hmode .brk, hmode .frameErr⟩ <;> cases o <;>
    simp [resultCode, brkPin, ferrPin, raisedEvent, hout, hevent]

end Sys2Proof.Machine
end

section
/-! # The selection and the effect of the SPI operations (43_spi_framer.md R172 to R176) -/

namespace Sys2Proof.Machine

section Tests

variable {c : SpiCfg} {u : SpiState} {ck fr : Bool}

theorem flagA_eq_true :
    flagA c u fr = true ↔ c.frameEnable = true ∧ fr = c.frameActive ∧ u.lastFrame ≠ c.frameActive := by
  simp [flagA, and_assoc]

theorem flagT_eq_true : flagT c = true ↔ SpiCfg.timeoutActive c := by
  simp [flagT, SpiCfg.timeoutActive]

theorem flagExpiring_eq_true : flagExpiring u = true ↔ u.countdown = 1 := decide_eq_true_iff

theorem flagG_eq_true : flagG c fr = true ↔ c.frameEnable = false ∨ fr = c.frameActive := by
  simp [flagG]

theorem flagE_eq_true : flagE c u ck = true ↔ ck ≠ u.lastClock ∧ ck = c.clockEdge := by
  simp [flagE]

theorem flagF_eq_true : flagF c u fr = true ↔ countAfterClears c u fr + 1 = c.nbBits := decide_eq_true_iff

end Tests

section Selection

variable (c : SpiCfg) (u : SpiState) (ck fr : Bool)

theorem decodeFS_eq_fstart :
    decodeFS .one (fsWord c u ck fr) = some .fstart ↔
      c.frameEnable = true ∧ fr = c.frameActive ∧ u.lastFrame ≠ c.frameActive := by
  simp [decodeFS_one, flagA_eq_true]

theorem decodeFS_one_eq_none :
    decodeFS .one (fsWord c u ck fr) = none ↔
      ¬ (c.frameEnable = true ∧ fr = c.frameActive ∧ u.lastFrame ≠ c.frameActive) := by
  rw [← flagA_eq_true]
  simp [decodeFS_one]

theorem decodeFS_eq_tcount :
    decodeFS .two (fsWord c u ck fr) = some .tcount ↔ SpiCfg.timeoutActive c ∧ u.countdown ≠ 1 := by
  rw [← flagT_eq_true, Ne, ← flagExpiring_eq_true, decodeFS_two]
  cases flagT c <;> cases flagExpiring u <;> simp

theorem decodeFS_eq_tfire :
    decodeFS .two (fsWord c u ck fr) = some .tfire ↔ SpiCfg.timeoutActive c ∧ u.countdown = 1 := by
  rw [← flagT_eq_true, ← flagExpiring_eq_true, decodeFS_two]
  cases flagT c <;> cases flagExpiring u <;> simp

theorem decodeFS_two_eq_none : decodeFS .two (fsWord c u ck fr) = none ↔ ¬ SpiCfg.timeoutActive c := by
  rw [← flagT_eq_true, decodeFS_two]
  cases flagT c <;> cases flagExpiring u <;> simp

theorem decodeFS_eq_shift :
    decodeFS .three (fsWord c u ck fr) = some .shift ↔
      (c.frameEnable = false ∨ fr = c.frameActive) ∧ ck ≠ u.lastClock ∧ ck = c.clockEdge ∧
        countAfterClears c u fr + 1 ≠ c.nbBits := by
  rw [← flagG_eq_true, ← and_assoc (b := _ = _), ← flagE_eq_true, Ne, ← flagF_eq_true, decodeFS_three]
  cases flagG c fr <;> cases flagE c u ck <;> cases flagF c u fr <;> simp

theorem decodeFS_eq_emit :
    decodeFS .three (fsWord c u ck fr) = some .emit ↔
      (c.frameEnable = false ∨ fr = c.frameActive) ∧ ck ≠ u.lastClock ∧ ck = c.clockEdge ∧
        countAfterClears c u fr + 1 = c.nbBits := by
  rw [← flagG_eq_true, ← and_assoc (b := _ = _), ← flagE_eq_true, ← flagF_eq_true, decodeFS_three]
  cases flagG c fr <;> cases flagE c u ck <;> cases flagF c u fr <;> simp

theorem decodeFS_three_eq_none :
    decodeFS .three (fsWord c u ck fr) = none ↔
      ¬ ((c.frameEnable = false ∨ fr = c.frameActive) ∧ ck ≠ u.lastClock ∧ ck = c.clockEdge) := by
  rw [← flagG_eq_true, ← flagE_eq_true, decodeFS_three]
  cases flagG c fr <;> cases flagE c u ck <;> cases flagF c u fr <;> simp

end Selection

/-- S.TCOUNT where the decrement does not underflow (R173). -/
theorem execSTcount_of_pos {s : State} (h : 1 ≤ s.spi.countdown) :
    execSTcount s = .next (s.withSpi { s.spi with countdown := s.spi.countdown - 1 }) :=
  execSTcount_eq_next.mpr ⟨s.spi.countdown - 1, by omega, rfl⟩

/-- S.SHIFT under a record whose data channel is there (R175). -/
theorem execSShift_of_lt {s : State} (x : Word) (h : s.spiCfg.dataChannel < s.par.w) :
    execSShift x s =
      .next (s.withSpi { s.spi with
        reg := shiftIn s.par s.spi.reg (x.testBit s.spiCfg.dataChannel)
        count := s.spi.count + 1 }) :=
  execSShift_eq_next.mpr ⟨h, rfl⟩

/-- S.EMIT under a record whose data channel is there (R176). -/
theorem execSEmit_of_lt {s : State} (x : Word) (h : s.spiCfg.dataChannel < s.par.w) :
    execSEmit x s =
      .next { s.withSpi (s.spi.clearShift.reload s.spiCfg) with
        spiOut := some (shiftIn s.par s.spi.reg (x.testBit s.spiCfg.dataChannel)) } :=
  execSEmit_eq_next.mpr ⟨h, rfl⟩

theorem shiftLeft_one_or_toNat (reg : Nat) (da : Bool) : reg <<< 1 ||| da.toNat = 2 * reg + da.toNat := by
  rw [Nat.shiftLeft_eq, Nat.mul_comm]
  exact (Nat.two_pow_add_eq_or_of_lt (toNat_lt_two_pow_one da) reg).symm

theorem two_mul_add_toNat_lt {reg count : Nat} (da : Bool) (h : reg < 2 ^ count) :
    2 * reg + da.toNat < 2 ^ (count + 1) := by
  have hda := Bool.toNat_lt da
  rw [Nat.pow_succ]
  omega

/-- A bit shifted into a register that is not full pushes none out (R41). -/
theorem shiftIn_eq_add {p : Params} {reg : Word} {count : Nat} (da : Bool) (hreg : reg < 2 ^ count)
    (hcount : count < p.wordW) : shiftIn p reg da = 2 * reg + da.toNat := by
  rw [shiftIn, shiftLeft_one_or_toNat]
  exact trunc_of_lt ((two_mul_add_toNat_lt da hreg).trans_le (Nat.pow_le_pow_right (by decide) hcount))

/-- Settles O35: bit `a` of the selector word alone decides phase 1. -/
theorem sFstartClears : Obligations.SFstartClears :=
  ⟨decodeFS_eq_fstart, decodeFS_one_eq_none, fun _ => rfl⟩

/-- Settles O36: bits `t` and `z` decide phase 2; under R42 an active countdown that is not 1 is more. -/
theorem sTcountDecrements : Obligations.STcountDecrements := by
  refine ⟨fun c u ck fr => ⟨decodeFS_eq_tcount c u ck fr, decodeFS_two_eq_none c u ck fr, fun hinv hsel => ?_⟩,
    fun s hs => execSTcount_of_pos hs⟩
  obtain ⟨hactive, hne⟩ := (decodeFS_eq_tcount c u ck fr).mp hsel
  have hpos := hinv.countdown_pos hactive
  omega

/-- Settles O37: bits `t` and `z` decide phase 2. -/
theorem sTfireClearsAndReloads : Obligations.STfireClearsAndReloads :=
  ⟨decodeFS_eq_tfire, fun _ => rfl⟩

/-- Settles O38: bits `g`, `e` and `f` decide phase 3; `count < nb_bits <= WORD_W` leaves room for the bit. -/
theorem sShiftShiftsTheDataBitIn : Obligations.SShiftShiftsTheDataBitIn := by
  refine ⟨decodeFS_eq_shift, decodeFS_three_eq_none, fun s x hd => execSShift_of_lt x hd, fun s da hl hinv => ?_⟩
  obtain ⟨-, -, -, -, hn⟩ := SpiCfg.legal_iff.mp hl
  exact shiftIn_eq_add da hinv.reg_lt (hinv.count_lt.trans_le hn)

/-- Settles O39: bits `g`, `e` and `f` decide phase 3; the completed word has the bits collected and one more. -/
theorem sEmitEmitsTheWord : Obligations.SEmitEmitsTheWord := by
  refine ⟨decodeFS_eq_emit, fun s x hd => execSEmit_of_lt x hd, fun c reg count da hreg hcount => ?_⟩
  rw [shiftLeft_one_or_toNat, ← hcount]
  exact two_mul_add_toNat_lt da hreg

end Sys2Proof.Machine
end

section
/-! # An SPI tick as the procedure of R178

Each phase of the procedure is what the operation selected in that phase does, although all four are selected from the state
at the start of the tick: what a phase tests is not changed by the phases before it, but for the count, which
`countAfterClears` foresees. -/

namespace Sys2Proof.Machine

section Phases

variable (c : SpiCfg) (u : SpiState) (fr : Bool)

@[simp] theorem spiProc1_countdown : (spiProc1 c fr u).countdown = u.countdown := by
  unfold spiProc1
  split <;> rfl

@[simp] theorem spiProc1_lastClock : (spiProc1 c fr u).lastClock = u.lastClock := by
  unfold spiProc1
  split <;> rfl

@[simp] theorem spiProc2_lastClock : (spiProc2 c u).lastClock = u.lastClock := by
  unfold spiProc2
  split
  · dsimp only
    split <;> rfl
  · rfl

/-- R178 tests the decremented countdown for 0, where R174 tests the countdown for 1. -/
theorem spiProc2_of_expiring (ht : SpiCfg.timeoutActive c) (h : u.countdown = 1) :
    spiProc2 c u = u.clearShift.reload c := by
  simp [spiProc2, ht.1, ht.2, h, SpiState.clearShift, SpiState.reload]

theorem spiProc2_of_counting (ht : SpiCfg.timeoutActive c) (h : 2 ≤ u.countdown) :
    spiProc2 c u = { u with countdown := u.countdown - 1 } := by
  have hne : u.countdown - 1 ≠ 0 := by omega
  simp [spiProc2, ht.1, ht.2, hne]

theorem spiProc2_of_inactive (ht : ¬ SpiCfg.timeoutActive c) : spiProc2 c u = u := if_neg ht

theorem spiProc1_eq : spiProc1 c fr u = if flagA c u fr then u.clearShift else u := by
  simp only [spiProc1, flagA_eq_true]
  rfl

/-- The count that R179 tests for completion is the one the first two phases leave. -/
theorem countAfterClears_eq (hpos : SpiCfg.timeoutActive c → 1 ≤ u.countdown) :
    countAfterClears c u fr = (spiProc2 c (spiProc1 c fr u)).count := by
  have hcount : (spiProc1 c fr u).count = if flagA c u fr then 0 else u.count := by
    rw [spiProc1_eq]
    split <;> rfl
  by_cases ht : SpiCfg.timeoutActive c
  · rcases (hpos ht).eq_or_lt with h1 | h2
    · rw [spiProc2_of_expiring _ _ ht (by simpa using h1.symm)]
      simp [countAfterClears, flagT_eq_true.mpr ht, flagExpiring_eq_true.mpr h1.symm]
    · rw [spiProc2_of_counting _ _ ht (by rwa [spiProc1_countdown]), hcount]
      simp [countAfterClears, flagExpiring, h2.ne']
  · rw [spiProc2_of_inactive _ _ ht, hcount]
    simp [countAfterClears, mt flagT_eq_true.mp ht]

end Phases

section Runs

variable {s : State} {u : SpiState} {ck fr : Bool} (x : Word)

/-! In each phase `u` is the unit's state at the start of the tick, `s` the state the phases before left. -/

theorem runSpiOp_phase_one (hu : u.lastFrame = s.spi.lastFrame) :
    runSpiOp (decodeFS .one (fsWord s.spiCfg u ck fr)) x s = .next (s.withSpi (spiProc1 s.spiCfg fr s.spi)) := by
  have hflag : flagA s.spiCfg u fr = flagA s.spiCfg s.spi fr := by rw [flagA, flagA, hu]
  rw [decodeFS_one, spiProc1_eq, hflag]
  split <;> rfl

theorem runSpiOp_phase_two (hu : u.countdown = s.spi.countdown)
    (hpos : SpiCfg.timeoutActive s.spiCfg → 1 ≤ s.spi.countdown) :
    runSpiOp (decodeFS .two (fsWord s.spiCfg u ck fr)) x s = .next (s.withSpi (spiProc2 s.spiCfg s.spi)) := by
  by_cases ht : SpiCfg.timeoutActive s.spiCfg
  · rcases (hpos ht).eq_or_lt with h1 | h2
    · rw [(decodeFS_eq_tfire _ _ _ _).mpr ⟨ht, hu.trans h1.symm⟩, spiProc2_of_expiring _ _ ht h1.symm]
      rfl
    · rw [(decodeFS_eq_tcount _ _ _ _).mpr ⟨ht, by omega⟩, spiProc2_of_counting _ _ ht h2]
      exact execSTcount_of_pos (hpos ht)
  · rw [(decodeFS_two_eq_none _ _ _ _).mpr ht, spiProc2_of_inactive _ _ ht]
    rfl

theorem runSpiOp_phase_three (hu : u.lastClock = s.spi.lastClock) (hcount : countAfterClears s.spiCfg u fr = s.spi.count)
    (hd : s.spiCfg.dataChannel < s.par.w) (hout : s.spiOut = none) :
    runSpiOp (decodeFS .three (fsWord s.spiCfg u ck fr)) x s =
      let r := spiProc3 s.par s.spiCfg ck fr (x.testBit s.spiCfg.dataChannel) s.spi
      .next { s.withSpi r.1 with spiOut := r.2 } := by
  by_cases hg : s.spiCfg.frameEnable = false ∨ fr = s.spiCfg.frameActive
  · by_cases he : ck ≠ s.spi.lastClock ∧ ck = s.spiCfg.clockEdge
    · by_cases hf : s.spi.count + 1 = s.spiCfg.nbBits
      · rw [(decodeFS_eq_emit _ _ _ _).mpr ⟨hg, hu ▸ he.1, he.2, hcount ▸ hf⟩]
        simp only [spiProc3, if_pos hg, if_pos he, if_pos hf]
        exact execSEmit_of_lt x hd
      · rw [(decodeFS_eq_shift _ _ _ _).mpr ⟨hg, hu ▸ he.1, he.2, hcount ▸ hf⟩]
        simp only [spiProc3, if_pos hg, if_pos he, if_neg hf, ← hout]
        exact execSShift_of_lt x hd
    · rw [(decodeFS_three_eq_none _ _ _ _).mpr fun h => he (hu ▸ h.2)]
      simp only [spiProc3, if_pos hg, if_neg he, ← hout]
      rfl
  · rw [(decodeFS_three_eq_none _ _ _ _).mpr fun h => hg h.1]
    simp only [spiProc3, if_neg hg, ← hout]
    rfl

theorem execSLatch_of_lt (hk : s.spiCfg.clockChannel < s.par.w) (hf : s.spiCfg.frameChannel < s.par.w) :
    execSLatch x s =
      .next (s.withSpi { s.spi with
        lastClock := x.testBit s.spiCfg.clockChannel
        lastFrame := x.testBit s.spiCfg.frameChannel }) :=
  execSLatch_eq_next.mpr ⟨hk, hf, rfl⟩

end Runs

/-- An SPI tick under a legal record, where an active countdown is at least 1. -/
theorem execTick_spi_of_legal {s : State} (x : Word) (hl : s.spiCfg.legal s.par = true)
    (hpos : SpiCfg.timeoutActive s.spiCfg → 1 ≤ s.spi.countdown) :
    execTick .spi x s =
      let r := spiProcedure s.par s.spiCfg s.spi (x.testBit s.spiCfg.clockChannel)
        (x.testBit s.spiCfg.frameChannel) (x.testBit s.spiCfg.dataChannel)
      .next { s with spi := r.1, spiOut := r.2 } := by
  obtain ⟨hk, hd, hf, -, -⟩ := SpiCfg.legal_iff.mp hl
  set ck := x.testBit s.spiCfg.clockChannel
  set fr := x.testBit s.spiCfg.frameChannel
  have h1 := runSpiOp_phase_one (s := s.clearOut .spi) (u := s.spi) (ck := ck) (fr := fr) x rfl
  have h2 := runSpiOp_phase_two (s := (s.clearOut .spi).withSpi (spiProc1 s.spiCfg fr s.spi)) (u := s.spi) (ck := ck)
    (fr := fr) x (by simp) (by simpa using hpos)
  have h3 := runSpiOp_phase_three
    (s := (s.clearOut .spi).withSpi (spiProc2 s.spiCfg (spiProc1 s.spiCfg fr s.spi))) (u := s.spi) (ck := ck) (fr := fr) x
    (by simp) (countAfterClears_eq _ _ _ hpos) hd rfl
  refine execTick_spi_eq_next.mpr ⟨_, _, _, _, selFS_of_lt _ _ hk hd hf, h1, h2, h3, ?_⟩
  exact execSLatch_of_lt x hk hf

/-- Settles O41: under R42 an active countdown is at least 1. -/
theorem spiTickIsItsProcedure : Obligations.SpiTickIsItsProcedure :=
  fun _ x hl hinv => execTick_spi_of_legal x hl hinv.countdown_pos

/-! ## What an SPI tick reads of its sample (R171) -/

theorem selFS_congr {p : Params} {c : SpiCfg} {u : SpiState} {x y : Word}
    (hk : x.testBit c.clockChannel = y.testBit c.clockChannel) (hf : x.testBit c.frameChannel = y.testBit c.frameChannel)
    (hd : x.testBit c.dataChannel = y.testBit c.dataChannel) : selFS p c u x = selFS p c u y := by
  rw [selFS, selFS, channel_congr p hk, channel_congr p hf, channel_congr p hd]

/-- No SPI operation reads more of the sample than the bits of the three channels. -/
theorem runSpiOp_congr {s : State} {x y : Word} (o : Option SpiOp)
    (hk : x.testBit s.spiCfg.clockChannel = y.testBit s.spiCfg.clockChannel)
    (hf : x.testBit s.spiCfg.frameChannel = y.testBit s.spiCfg.frameChannel)
    (hd : x.testBit s.spiCfg.dataChannel = y.testBit s.spiCfg.dataChannel) : runSpiOp o x s = runSpiOp o y s := by
  match o with
  | some .shift => simp only [runSpiOp, execSShift, channel_congr s.par hd]
  | some .emit => simp only [runSpiOp, execSEmit, channel_congr s.par hd]
  | some .latch => simp only [runSpiOp, execSLatch, channel_congr s.par hk, channel_congr s.par hf]
  | none | some .fstart | some .tcount | some .tfire => rfl

/-- An SPI operation writes the unit's state record and its output. -/
theorem runSpiOp_frame {o : Option SpiOp} {x : Word} {s t : State} (h : runSpiOp o x s = .next t) :
    t = { s with spi := t.spi, spiOut := t.spiOut } := by
  match o with
  | some .tcount =>
    obtain ⟨k, -, rfl⟩ := execSTcount_eq_next.mp h
    rfl
  | some .shift =>
    obtain ⟨-, rfl⟩ := execSShift_eq_next.mp h
    rfl
  | some .emit =>
    obtain ⟨-, rfl⟩ := execSEmit_eq_next.mp h
    rfl
  | some .latch =>
    obtain ⟨-, -, rfl⟩ := execSLatch_eq_next.mp h
    rfl
  | none | some .fstart | some .tfire =>
    cases h
    rfl

theorem runSpiOp_spiCfg {o : Option SpiOp} {x : Word} {s t : State} (h : runSpiOp o x s = .next t) :
    t.spiCfg = s.spiCfg :=
  (congrArg State.spiCfg (runSpiOp_frame h) :)

theorem spiPhases_congr {s : State} {x y : Word} (w : BitVec 6)
    (hk : x.testBit s.spiCfg.clockChannel = y.testBit s.spiCfg.clockChannel)
    (hf : x.testBit s.spiCfg.frameChannel = y.testBit s.spiCfg.frameChannel)
    (hd : x.testBit s.spiCfg.dataChannel = y.testBit s.spiCfg.dataChannel) : spiPhases w x s = spiPhases w y s := by
  have hrun {t : State} (ht : t.spiCfg = s.spiCfg) (ph : Phase) :
      runSpiOp (decodeFS ph w) x t = runSpiOp (decodeFS ph w) y t := by
    rw [← ht] at hk hf hd
    exact runSpiOp_congr _ hk hf hd
  rw [spiPhases, spiPhases, hrun rfl]
  refine andThen_congr fun s1 h1 => ?_
  have e1 := runSpiOp_spiCfg h1
  rw [hrun e1]
  refine andThen_congr fun s2 h2 => ?_
  have e2 := (runSpiOp_spiCfg h2).trans e1
  rw [hrun e2]
  refine andThen_congr fun s3 h3 => ?_
  exact hrun ((runSpiOp_spiCfg h3).trans e2) _

/-- Settles O42: neither the selection nor an operation of a phase reads anything else of the sample. -/
theorem spiReadsOnlyItsChannels : Obligations.SpiReadsOnlyItsChannels := by
  intro s x y hk hf hd
  rw [exec_tick, exec_tick, execTick, execTick]
  simp only [spiTick, clearOut_par, clearOut_spiCfg, clearOut_spiState, selFS_congr hk hf hd,
    fun w => spiPhases_congr (s := s.clearOut .spi) w hk hf hd]

end Sys2Proof.Machine
end

section
/-! # Independence of the units (20_memory.md R69, R70)

What an operation writes, and that what it does is not changed by a change of the state outside its unit. -/

namespace Sys2Proof.Machine

/-- Every instruction is one of a unit's port or one that a tick selects. -/
theorem instr_cases {P : Instr → Prop} (reset : ∀ c, P (.reset c)) (tick : ∀ u x, P (.tick u x))
    (idleCycle : ∀ u, P (.idleCycle u)) (edge : ∀ (o : EdgeOp) x, P (o.instr x))
    (uart : ∀ (o : UartOp) x, P (o.instr x)) (spi : ∀ (o : SpiOp) x, P (o.instr x)) (i : Instr) : P i := by
  cases i with
  | reset c => exact reset c
  | tick u x => exact tick u x
  | idleCycle u => exact idleCycle u
  | eHold x => exact edge .hold x
  | eEmit x => exact edge .emit x
  | uSkip => exact uart .skip 0
  | uIdle => exact uart .idle 0
  | uStart => exact uart .start 0
  | uData x => exact uart .data x
  | uStop => exact uart .stop 0
  | uBreak => exact uart .brk 0
  | uFerr => exact uart .ferr 0
  | uBwait => exact uart .bwait 0
  | uBrec => exact uart .brec 0
  | uFwait => exact uart .fwait 0
  | uFrec => exact uart .frec 0
  | sFstart => exact spi .fstart 0
  | sTcount => exact spi .tcount 0
  | sTfire => exact spi .tfire 0
  | sShift x => exact spi .shift x
  | sEmit x => exact spi .emit x
  | sLatch x => exact spi .latch x

@[simp] theorem opUnit_edgeOp (o : EdgeOp) (x : Word) : opUnit (o.instr x) = .edge := by cases o <;> rfl
@[simp] theorem opUnit_uartOp (o : UartOp) (x : Word) : opUnit (o.instr x) = .uart := by cases o <;> rfl
@[simp] theorem opUnit_spiOp (o : SpiOp) (x : Word) : opUnit (o.instr x) = .spi := by cases o <;> rfl

/-! ## What an operation writes -/

/-- `s` with the state record and the outputs that one unit has in `t`. -/
def State.withRegs (s : State) (u : UnitId) (t : State) : State :=
  match u with
  | .edge => { s with edge := t.edge, edgeOut := t.edgeOut }
  | .uart => { s with uart := t.uart, uartOut := t.uartOut, uartEvent := t.uartEvent }
  | .spi => { s with spi := t.spi, spiOut := t.spiOut }

theorem runEdgeOp_frame {o : EdgeOp} {x : Word} {s t : State} (h : runEdgeOp o x s = .next t) :
    t = s.withRegs .edge t := by
  cases o <;> cases h <;> rfl

theorem runUartOp_withRegs {o : UartOp} {x : Word} {s t : State} (h : runUartOp o x s = .next t) :
    t = s.withRegs .uart t := by
  rw [runUartOp_frame h]
  rfl

theorem clearOut_withRegs (s t : State) (u : UnitId) : (s.clearOut u).withRegs u t = s.withRegs u t := by
  cases u <;> rfl

theorem spiPhases_frame {w : BitVec 6} {x : Word} {s t : State} (h : spiPhases w x s = .next t) :
    t = s.withRegs .spi t := by
  obtain ⟨s1, h1, h⟩ := andThen_eq_next.mp h
  obtain ⟨s2, h2, h⟩ := andThen_eq_next.mp h
  obtain ⟨s3, h3, h4⟩ := andThen_eq_next.mp h
  rw [runSpiOp_frame h4, runSpiOp_frame h3, runSpiOp_frame h2, runSpiOp_frame h1]
  rfl

/-- An operation other than RESET writes the state record and the outputs of its own unit and nothing else. -/
theorem exec_frame {i : Instr} {s t : State} (hi : ∀ c, i ≠ .reset c) (h : exec i s = .next t) :
    t = s.withRegs (opUnit i) t := by
  induction i using instr_cases with
  | reset c => exact absurd rfl (hi c)
  | tick u x =>
    rw [opUnit, ← clearOut_withRegs]
    cases u with
    | edge => exact runEdgeOp_frame h
    | uart => exact runUartOp_withRegs (execTick_uart_eq_next.mp h).2
    | spi =>
      obtain ⟨w, -, hrun⟩ := withValue_eq_next.mp h
      exact spiPhases_frame hrun
  | idleCycle u => cases u <;> cases h <;> rfl
  | edge o x =>
    rw [opUnit_edgeOp]
    exact runEdgeOp_frame ((runEdgeOp_eq_exec s x o).trans h)
  | uart o x =>
    rw [opUnit_uartOp]
    exact runUartOp_withRegs ((runUartOp_eq_exec s x o).trans h)
  | spi o x =>
    rw [opUnit_spiOp]
    exact runSpiOp_frame ((runSpiOp_eq_exec s x o).trans h)

/-- `s` with everything that the operations of one unit read or write as it is in `t`. -/
def State.withUnit (s : State) (u : UnitId) (t : State) : State :=
  match u with
  | .edge => { s with par := t.par, edge := t.edge, edgeOut := t.edgeOut }
  | .uart =>
    { s with par := t.par, uartCfg := t.uartCfg, uart := t.uart, uartOut := t.uartOut, uartEvent := t.uartEvent }
  | .spi => { s with par := t.par, spiCfg := t.spiCfg, spi := t.spi, spiOut := t.spiOut }

theorem withUnit_of_sameFor {u : UnitId} {s s' : State} (h : sameFor u s s') : s'.withUnit u s = s' := by
  obtain ⟨hpar, hunit⟩ := h
  cases u with
  | edge =>
    obtain ⟨h1, h2⟩ := hunit
    simp only [State.withUnit, hpar, h1, h2]
  | uart =>
    obtain ⟨h1, h2, h3, h4⟩ := hunit
    simp only [State.withUnit, hpar, h1, h2, h3, h4]
  | spi =>
    obtain ⟨h1, h2, h3⟩ := hunit
    simp only [State.withUnit, hpar, h1, h2, h3]

theorem sameFor_withUnit (u : UnitId) (s t : State) : sameFor u t (s.withUnit u t) := by
  cases u <;> simp [sameFor, State.withUnit]

theorem sameFor_withUnit_of_ne {u v : UnitId} {s t : State} (hv : v ≠ u) (hpar : t.par = s.par) :
    sameFor v s (s.withUnit u t) := by
  cases u <;> cases v <;> simp [sameFor, State.withUnit, hpar] at hv ⊢

@[simp] theorem withUnit_wire (u : UnitId) (s t : State) : (s.withUnit u t).wire = s.wire := by cases u <;> rfl
@[simp] theorem withUnit_input (u : UnitId) (s t : State) : (s.withUnit u t).input = s.input := by cases u <;> rfl

theorem withRegs_par (u : UnitId) (s t : State) : (s.withRegs u t).par = s.par := by cases u <;> rfl
theorem withRegs_uartCfg (u : UnitId) (s t : State) : (s.withRegs u t).uartCfg = s.uartCfg := by cases u <;> rfl
theorem withRegs_spiCfg (u : UnitId) (s t : State) : (s.withRegs u t).spiCfg = s.spiCfg := by cases u <;> rfl

/-- An operation that is not RESET keeps the parameters and the configurations. -/
theorem exec_keeps_configuration {i : Instr} {s t : State} (hi : ∀ c, i ≠ .reset c) (h : exec i s = .next t) :
    t.par = s.par ∧ t.uartCfg = s.uartCfg ∧ t.spiCfg = s.spiCfg := by
  rw [exec_frame hi h]
  exact ⟨withRegs_par _ _ _, withRegs_uartCfg _ _ _, withRegs_spiCfg _ _ _⟩

/-- What an operation writes belongs to its own unit, and is not the parameters. -/
theorem exec_writes_own_unit {i : Instr} {s t : State} (h : exec i s = .next t) :
    t.par = s.par ∧ t = s.withUnit (opUnit i) t := by
  by_cases hi : ∀ c, i ≠ .reset c
  · obtain ⟨hpar, hu, hs⟩ := exec_keeps_configuration hi h
    refine ⟨hpar, (exec_frame hi h).trans ?_⟩
    cases opUnit i <;> simp only [State.withRegs, State.withUnit, hpar, hu, hs]
  · obtain ⟨c, rfl⟩ := not_forall_not.mp hi
    obtain ⟨-, rfl⟩ := execReset_eq_next.mp h
    cases c <;> exact ⟨rfl, rfl⟩

theorem exec_par {i : Instr} {s t : State} (h : exec i s = .next t) : t.par = s.par := (exec_writes_own_unit h).1

theorem exec_wire {i : Instr} {s t : State} (h : exec i s = .next t) : t.wire = s.wire := by
  rw [(exec_writes_own_unit h).2, withUnit_wire]

theorem exec_input {i : Instr} {s t : State} (h : exec i s = .next t) : t.input = s.input := by
  rw [(exec_writes_own_unit h).2, withUnit_input]

/-- An operation leaves the other units alone. -/
theorem exec_sameFor_of_ne {i : Instr} {s t : State} {u : UnitId} (h : exec i s = .next t) (hu : u ≠ opUnit i) :
    sameFor u s t := by
  obtain ⟨hpar, ht⟩ := exec_writes_own_unit h
  rw [ht]
  exact sameFor_withUnit_of_ne hu hpar

theorem step_par_wire {s t : State} (h : step s = .next t) : t.par = s.par ∧ t.wire = s.wire :=
  step_keeps (P := fun r => r.par = s.par ∧ r.wire = s.wire) (fun _ hr => hr)
    (fun _ _ _ hr hx => ⟨(exec_par hx).trans hr.1, (exec_wire hx).trans hr.2⟩) ⟨rfl, rfl⟩ h

/-- Settles O54: of the operations RESET alone writes a configuration, and it writes the record it is given. -/
theorem onlyResetChangesConfiguration : Obligations.OnlyResetChangesConfiguration := by
  refine ⟨fun i s t h => ?_, fun s t => step_par_wire⟩
  by_cases hi : ∀ c, i ≠ .reset c
  · obtain ⟨-, hu, hs⟩ := exec_keeps_configuration hi h
    exact ⟨.inl hu, .inl hs⟩
  · obtain ⟨c, rfl⟩ := not_forall_not.mp hi
    obtain ⟨-, rfl⟩ := execReset_eq_next.mp h
    cases c with
    | edge => exact ⟨.inl rfl, .inl rfl⟩
    | uart c => exact ⟨.inr rfl, .inl rfl⟩
    | spi c => exact ⟨.inl rfl, .inr rfl⟩

/-! ## What an operation depends on

An operation that commutes with a change `g` of the state does not look at what `g` changes. -/

/-- `g` on the next state, if the outcome is one. -/
def mapNext (g : State → State) : Result → Result
  | .next s => .next (g s)
  | .fault e => .fault e
  | .refused e => .refused e

/-- `f` after the change `g` does what it did before, with the change. -/
def Commutes (g : State → State) (f : State → Result) : Prop := ∀ s, f (g s) = mapNext g (f s)

theorem Commutes.andThen {g : State → State} {f f' : State → Result} (hf : Commutes g f) (hf' : Commutes g f') :
    Commutes g fun s => andThen (f s) f' := by
  intro s
  simp only [hf s]
  cases f s with
  | next t => exact hf' t
  | _ => rfl

/-- An operation on a value that `g` does not change. -/
theorem Commutes.withValue {α : Type} {g : State → State} {v : State → Option α} {why : Refusal}
    {f : α → State → Result} (hv : ∀ s, v (g s) = v s) (hf : ∀ a, Commutes g (f a)) :
    Commutes g fun s => withValue (v s) why fun a => f a s := by
  intro s
  simp only [hv s]
  cases v s with
  | none => rfl
  | some a => exact hf a s

/-- Replacing everything outside the UART. -/
theorem runUartOp_commutes (o : UartOp) (x : Word) (r : State) : Commutes (r.withUnit .uart) (runUartOp o x) := by
  cases o with
  | skip => exact .withValue (fun _ => rfl) fun _ _ => rfl
  | start => exact .withValue (fun _ => rfl) fun _ _ => rfl
  | data => exact .withValue (fun _ => rfl) fun _ => .withValue (fun _ => rfl) fun _ _ => rfl
  | _ => exact fun _ => rfl

theorem runSpiOp_commutes (o : Option SpiOp) (x : Word) (r : State) : Commutes (r.withUnit .spi) (runSpiOp o x) := by
  match o with
  | some .tcount => exact .withValue (fun _ => rfl) fun _ _ => rfl
  | some .shift | some .emit => exact .withValue (fun _ => rfl) fun _ _ => rfl
  | some .latch => exact .withValue (fun _ => rfl) fun _ => .withValue (fun _ => rfl) fun _ _ => rfl
  | none | some .fstart | some .tfire => exact fun _ => rfl

theorem runEdgeOp_commutes (o : EdgeOp) (x : Word) (r : State) : Commutes (r.withUnit .edge) (runEdgeOp o x) := by
  cases o <;> exact fun _ => rfl

theorem spiPhases_commutes {g : State → State} {x : Word} (h : ∀ o, Commutes g (runSpiOp o x)) (w : BitVec 6) :
    Commutes g (spiPhases w x) :=
  (h _).andThen ((h _).andThen ((h _).andThen (h _)))

theorem execReset_commutes (c : UnitCfg) (r : State) : Commutes (r.withUnit c.unit) (execReset c) := by
  intro s
  have hpar : (r.withUnit c.unit s).par = s.par := by cases c <;> rfl
  unfold execReset
  rw [hpar]
  split
  · cases c <;> rfl
  · rfl

/-- The state outside an operation's unit may be exchanged for another without changing what the operation does. -/
theorem exec_commutes (i : Instr) (r : State) : Commutes (r.withUnit (opUnit i)) (exec i) := by
  induction i using instr_cases with
  | reset c => exact execReset_commutes c r
  | tick u x =>
    cases u with
    | edge => exact fun s => runEdgeOp_commutes _ x r (s.clearOut .edge)
    | uart => exact .withValue (fun _ => rfl) fun w s => runUartOp_commutes _ x r (s.clearOut .uart)
    | spi =>
      exact .withValue (fun _ => rfl) fun w s =>
        spiPhases_commutes (fun o => runSpiOp_commutes o x r) w (s.clearOut .spi)
  | idleCycle u => cases u <;> exact fun _ => rfl
  | edge o x =>
    rw [opUnit_edgeOp, ← funext (runEdgeOp_eq_exec · x o)]
    exact runEdgeOp_commutes o x r
  | uart o x =>
    rw [opUnit_uartOp, ← funext (runUartOp_eq_exec · x o)]
    exact runUartOp_commutes o x r
  | spi o x =>
    rw [opUnit_spiOp, ← funext (runSpiOp_eq_exec · x o)]
    exact runSpiOp_commutes o x r

/-- On states that agree for its unit an operation does the same to the unit. -/
theorem exec_of_sameFor {i : Instr} {s s' : State} (h : sameFor (opUnit i) s s') :
    exec i s' = mapNext (s'.withUnit (opUnit i)) (exec i s) := by
  rw [← exec_commutes i s' s, withUnit_of_sameFor h]

theorem exec_next_of_sameFor {i : Instr} {s s' t : State} (h : sameFor (opUnit i) s s') (ht : exec i s = .next t) :
    ∃ t', exec i s' = .next t' ∧ sameFor (opUnit i) t t' :=
  ⟨s'.withUnit (opUnit i) t, by rw [exec_of_sameFor h, ht, mapNext], sameFor_withUnit _ _ _⟩

/-- Settles O55: an operation writes its own unit, and commutes with exchanging the rest of the state. -/
theorem unitsDoNotInteract : Obligations.UnitsDoNotInteract := by
  refine ⟨fun i s t h => ⟨fun u => exec_sameFor_of_ne h, exec_par h, exec_wire h, exec_input h⟩,
    fun i s s' t => exec_next_of_sameFor, fun i s s' r h hr => ?_⟩
  rw [exec_of_sameFor h, hr, mapNext]

/-! ## The idle level of the clock (R180) -/

/-- The state with another clock polarity in the SPI record. -/
def State.withPolarity (b : Bool) (s : State) : State := { s with spiCfg := { s.spiCfg with clockPolarity := b } }

theorem runSpiOp_commutes_withPolarity (o : Option SpiOp) (x : Word) (b : Bool) :
    Commutes (State.withPolarity b) (runSpiOp o x) := by
  match o with
  | some .tcount => exact .withValue (fun _ => rfl) fun _ _ => rfl
  | some .shift | some .emit => exact .withValue (fun _ => rfl) fun _ _ => rfl
  | some .latch => exact .withValue (fun _ => rfl) fun _ => .withValue (fun _ => rfl) fun _ _ => rfl
  | none | some .fstart | some .tfire => exact fun _ => rfl

theorem withUnit_withPolarity {u : UnitId} (hu : u ≠ .spi) (b : Bool) (s t : State) :
    (s.withPolarity b).withUnit u t = (s.withUnit u t).withPolarity b := by
  cases u with
  | spi => exact absurd rfl hu
  | _ => rfl

theorem sameFor_withPolarity {u : UnitId} (hu : u ≠ .spi) (b : Bool) (s : State) : sameFor u s (s.withPolarity b) := by
  cases u with
  | spi => exact absurd rfl hu
  | edge => exact ⟨rfl, rfl, rfl⟩
  | uart => exact ⟨rfl, rfl, rfl, rfl, rfl⟩

/-- The operations of the other units do not see the SPI record at all. -/
theorem exec_commutes_withPolarity_of_ne {i : Instr} (hu : opUnit i ≠ .spi) (b : Bool) :
    Commutes (State.withPolarity b) (exec i) := by
  intro s
  rw [exec_of_sameFor (sameFor_withPolarity hu b s)]
  cases h : exec i s with
  | next t => rw [mapNext, mapNext, withUnit_withPolarity hu, ← (exec_writes_own_unit h).2]
  | _ => rfl

/-- Settles O43: of the SPI operations RESET alone looks at the polarity; those of the other units do not see the record. -/
theorem polarityIsReadByResetAlone : Obligations.PolarityIsReadByResetAlone := by
  intro i s t b hi h
  have hcomm : Commutes (State.withPolarity b) (exec i) := by
    by_cases hu : opUnit i = .spi
    · induction i using instr_cases with
      | reset c => exact absurd rfl (hi c)
      | tick u x =>
        obtain rfl : u = .spi := hu
        exact .withValue (fun _ => rfl) fun w s =>
          spiPhases_commutes (fun o => runSpiOp_commutes_withPolarity o x b) w (s.clearOut .spi)
      | idleCycle u =>
        obtain rfl : u = .spi := hu
        exact fun _ => rfl
      | spi o x =>
        rw [← funext (runSpiOp_eq_exec · x o)]
        exact runSpiOp_commutes_withPolarity o x b
      | edge o x => simp at hu
      | uart o x => simp at hu
    · exact exec_commutes_withPolarity_of_ne hu b
  exact (hcomm s).trans (congrArg (mapNext _) h)

/-! ## The source of an event (R201, R202) -/

theorem raisedEvent_eq_some {o : UartOp} {e : Event} :
    raisedEvent o = some e ↔ (e = .brk ∧ o = .brk) ∨ (e = .frameErr ∧ o = .ferr) := by
  cases o <;> cases e <;> simp [raisedEvent]

/-- Settles O30: U.BREAK and U.FERR alone raise an event, alone or selected by a tick; RESET, the idle cycle and the tick take
the old one away, and the operations of the other units do not touch it. -/
theorem eventsHaveOneSource : Obligations.EventsHaveOneSource := by
  intro i s t e h he hne
  have hu : opUnit i = .uart := by
    by_contra hu
    obtain ⟨-, -, -, -, hkeep⟩ := exec_sameFor_of_ne h (Ne.symm hu)
    exact hne (hkeep.trans he)
  induction i using instr_cases with
  | reset c =>
    obtain ⟨-, rfl⟩ := execReset_eq_next.mp h
    cases c with
    | uart c => exact absurd he (by simp [UnitCfg.unit, State.construct, State.clearOut])
    | _ => cases hu
  | tick u x =>
    obtain rfl : u = .uart := hu
    obtain ⟨hc, hrun⟩ := execTick_uart_eq_next.mp h
    have hraised := (runUartOp_event hrun).symm.trans he
    simp only [clearOut_uart, Option.or_none] at hraised
    rcases raisedEvent_eq_some.mp hraised with ⟨hb, ho⟩ | ⟨hf, ho⟩
    · exact .inl ⟨hb, .inr ⟨x, _, rfl, selFU_of_lt _ _ hc, ho⟩⟩
    · exact .inr ⟨hf, .inr ⟨x, _, rfl, selFU_of_lt _ _ hc, ho⟩⟩
  | idleCycle u =>
    obtain rfl : u = .uart := hu
    cases h
    exact absurd he (by simp [clearOut_uart])
  | uart o x =>
    have hevent := (runUartOp_event ((runUartOp_eq_exec s x o).trans h)).symm.trans he
    rcases Option.or_eq_some_iff.mp hevent with hraised | ⟨-, hold⟩
    · rcases raisedEvent_eq_some.mp hraised with ⟨hb, rfl⟩ | ⟨hf, rfl⟩
      · exact .inl ⟨hb, .inl rfl⟩
      · exact .inr ⟨hf, .inl rfl⟩
    · exact absurd hold hne
  | edge o x => simp at hu
  | spi o x => simp at hu

end Sys2Proof.Machine
end

section
/-! # Good states (10_state.md R33, R41, R42)

Every port operation keeps a good state good, and a TICK never fails in one. -/

namespace Sys2Proof.Machine

/-! ## UART -/

theorem UartInv.reset (c : UartCfg) : UartInv c UartState.reset where
  bit_le := Nat.zero_le _
  reg_lt := by decide
  skip_shift h := absurd h (by decide)
  skip_le := by simp [UartState.reset]
  skip_zero _ := rfl

/-- A change of the mode alone, on a tick that does not skip. -/
theorem UartInv.withMode {c : UartCfg} {u : UartState} (h : UartInv c u) (hs : u.skip = 0) (m : UMode) :
    UartInv c { u with mode := m } where
  bit_le := h.bit_le
  reg_lt := h.reg_lt
  skip_shift hpos := absurd hs hpos.ne'
  skip_le := h.skip_le
  skip_zero _ := hs

theorem UartInv.start (c : UartCfg) : UartInv c ⟨.shift, 0, 0, startDelay c.period⟩ where
  bit_le := Nat.zero_le _
  reg_lt := Nat.one_pos
  skip_shift _ := rfl
  skip_le := by simp
  skip_zero h := absurd rfl h

theorem UartInv.skip {c : UartCfg} {u : UartState} (h : UartInv c u) (hs : 0 < u.skip) :
    UartInv c { u with skip := u.skip - 1 } where
  bit_le := h.bit_le
  reg_lt := h.reg_lt
  skip_shift _ := h.skip_shift hs
  skip_le := by
    have hle := h.skip_le
    by_cases hb : u.bit = 0 <;> simp only [hb, if_true, if_false] at hle ⊢ <;> omega
  skip_zero hm := absurd (h.skip_shift hs) hm

theorem UartInv.data {p : Params} {c : UartCfg} {u : UartState} (h : UartInv c u) (hm : u.mode = .shift)
    (hb : u.bit < c.nbBits) (i : Bool) :
    UartInv c { u with reg := orBit p u.reg i u.bit, bit := u.bit + 1, skip := c.period - 1 } where
  bit_le := hb
  reg_lt := orBit_lt_succ i h.reg_lt
  skip_shift _ := hm
  skip_le := by simp
  skip_zero hne := absurd hm hne

/-- R33: the procedure of a UART tick keeps the invariant. -/
theorem UartInv.procedure {p : Params} {c : UartCfg} {u : UartState} (h : UartInv c u) (i : Bool) :
    UartInv c (uartProcedure p c u i).1 := by
  have htest := uartOpTest_decodeFU_fuWord c u i
  rw [uartProcedure_of_test htest]
  generalize decodeFU (fuWord c u i) = o at htest ⊢
  cases o with
  | skip => exact h.skip htest
  | start => exact .start c
  | data => exact h.data htest.2.1 htest.2.2 i
  | stop | brk | ferr | brec | frec => exact h.withMode htest.1 _
  | idle | bwait | fwait => exact h

/-- A word that the UART outputs has `nb_bits` bits. -/
theorem UartInv.word_lt {p : Params} {c : UartCfg} {u : UartState} (h : UartInv c u) {i : Bool} {v : Word}
    (hv : (uartProcedure p c u i).2.1 = some v) : v < 2 ^ c.nbBits := by
  rw [uartProcedure_of_test (uartOpTest_decodeFU_fuWord c u i)] at hv
  generalize decodeFU (fuWord c u i) = o at hv
  cases o with
  | stop =>
    obtain rfl := Option.some.inj hv
    exact h.reg_lt_nbBits
  | _ => cases hv

/-! ## SPI -/

theorem SpiInv.reset {p : Params} {c : SpiCfg} (hl : c.legal p = true) : SpiInv c (SpiState.reset c) where
  count_lt := (SpiCfg.legal_iff.mp hl).2.2.2.1
  reg_lt := Nat.one_pos
  countdown_pos h := Nat.one_le_iff_ne_zero.mpr h.2
  countdown_le := Nat.le_refl _

section

variable {c : SpiCfg} {u : SpiState} (h : SpiInv c u)
include h

theorem SpiInv.clearShift : SpiInv c u.clearShift where
  count_lt := Nat.zero_lt_of_lt h.count_lt
  reg_lt := Nat.one_pos
  countdown_pos := h.countdown_pos
  countdown_le := h.countdown_le

theorem SpiInv.reload : SpiInv c (u.reload c) where
  count_lt := h.count_lt
  reg_lt := h.reg_lt
  countdown_pos ht := Nat.one_le_iff_ne_zero.mpr ht.2
  countdown_le := Nat.le_refl _

theorem SpiInv.countDown (h2 : 2 ≤ u.countdown) : SpiInv c { u with countdown := u.countdown - 1 } where
  count_lt := h.count_lt
  reg_lt := h.reg_lt
  countdown_pos _ := Nat.le_sub_one_of_lt h2
  countdown_le := (Nat.sub_le _ _).trans h.countdown_le

theorem SpiInv.shift (p : Params) (da : Bool) (hne : u.count + 1 ≠ c.nbBits) :
    SpiInv c { u with reg := shiftIn p u.reg da, count := u.count + 1 } where
  count_lt := Nat.lt_of_le_of_ne h.count_lt hne
  reg_lt := shiftIn_lt_succ da h.reg_lt
  countdown_pos := h.countdown_pos
  countdown_le := h.countdown_le

theorem SpiInv.latch (ck fr : Bool) : SpiInv c { u with lastClock := ck, lastFrame := fr } where
  count_lt := h.count_lt
  reg_lt := h.reg_lt
  countdown_pos := h.countdown_pos
  countdown_le := h.countdown_le

theorem SpiInv.proc1 (fr : Bool) : SpiInv c (spiProc1 c fr u) := by
  rw [spiProc1_eq]
  split
  · exact h.clearShift
  · exact h

theorem SpiInv.proc2 : SpiInv c (spiProc2 c u) := by
  by_cases ht : SpiCfg.timeoutActive c
  · rcases (h.countdown_pos ht).eq_or_lt with h1 | h2
    · rw [spiProc2_of_expiring _ _ ht h1.symm]
      exact h.clearShift.reload
    · rw [spiProc2_of_counting _ _ ht h2]
      exact h.countDown h2
  · rw [spiProc2_of_inactive _ _ ht]
    exact h

/-- Phase 3 keeps the invariant, and a word it outputs has `nb_bits` bits. -/
theorem SpiInv.proc3 (p : Params) (ck fr da : Bool) :
    SpiInv c (spiProc3 p c ck fr da u).1 ∧ ∀ v, (spiProc3 p c ck fr da u).2 = some v → v < 2 ^ c.nbBits := by
  unfold spiProc3
  split
  · split
    · dsimp only
      split
      · rename_i hfull
        refine ⟨h.clearShift.reload, fun v hv => ?_⟩
        obtain rfl := Option.some.inj hv
        exact hfull ▸ shiftIn_lt_succ da h.reg_lt
      · rename_i hne
        exact ⟨h.shift p da hne, by simp⟩
    · exact ⟨h, by simp⟩
  · exact ⟨h, by simp⟩

/-- R41, R42: the procedure of an SPI tick keeps the invariant. -/
theorem SpiInv.procedure (p : Params) (ck fr da : Bool) : SpiInv c (spiProcedure p c u ck fr da).1 :=
  ((h.proc1 fr).proc2.proc3 p ck fr da).1.latch ck fr

/-- A word that the SPI unit outputs has `nb_bits` bits. -/
theorem SpiInv.word_lt {p : Params} {ck fr da : Bool} {v : Word} (hv : (spiProcedure p c u ck fr da).2 = some v) :
    v < 2 ^ c.nbBits :=
  ((h.proc1 fr).proc2.proc3 p ck fr da).2 v hv

end

/-! ## A tick in a good state -/

/-- A tick of EDGE on any sample: the low `W` bits of it are what the unit sees (R133). -/
theorem execTick_edge_eq_procedure (s : State) (x : Word) :
    execTick .edge x s =
      let r := edgeProcedure s.par s.edge x
      .next { s with edge := r.1, edgeOut := r.2 } := by
  rw [execTick_edge, decodeFE_selFE, flagD]
  by_cases hd : value s.par x ^^^ s.edge.lastSample ≠ 0 <;>
    simp [edgeProcedure, hd, runEdgeOp, execEEmit, execEHold]

theorem State.Good.tick_edge {s : State} (h : s.Good) (x : Word) :
    State.Good { s with edge := (edgeProcedure s.par s.edge x).1, edgeOut := (edgeProcedure s.par s.edge x).2 } :=
  { h with edge_lt := value_lt _ _ }

theorem State.Good.with_uart {s : State} (h : s.Good) {u : UartState} (hu : UartInv s.uartCfg u) (out : Option Word)
    (e : Option Event) : State.Good { s with uart := u, uartOut := out, uartEvent := e } :=
  { h with uart_inv := hu }

theorem State.Good.with_spi {s : State} (h : s.Good) {u : SpiState} (hu : SpiInv s.spiCfg u) (out : Option Word) :
    State.Good { s with spi := u, spiOut := out } :=
  { h with spi_inv := hu }

/-- Settles O9: the tick of each unit is its procedure, which keeps the unit's invariant. -/
theorem tickCompletesInGoodStates : Obligations.TickCompletesInGoodStates := by
  intro s u x h
  cases u with
  | edge => exact ⟨_, execTick_edge_eq_procedure s x, h.tick_edge x⟩
  | uart => exact ⟨_, uartTickIsItsProcedure s x h.uart_legal, h.with_uart (h.uart_inv.procedure _) _ _⟩
  | spi =>
    exact ⟨_, spiTickIsItsProcedure s x h.spi_legal h.spi_inv, h.with_spi (h.spi_inv.procedure _ _ _ _) _⟩

/-- Settles O53: the words are those that the procedures output. -/
theorem emittedWordsFit : Obligations.EmittedWordsFit := by
  intro s t u x v h ht hv
  cases u with
  | edge =>
    obtain rfl := Host.Outcome.next.inj ((execTick_edge_eq_procedure s x).symm.trans ht)
    obtain ⟨-, hv⟩ := Option.ite_none_right_eq_some.mp hv
    obtain rfl := Option.some.inj hv
    exact value_lt _ _
  | uart =>
    obtain rfl := Host.Outcome.next.inj ((uartTickIsItsProcedure s x h.uart_legal).symm.trans ht)
    exact h.uart_inv.word_lt hv
  | spi =>
    obtain rfl := Host.Outcome.next.inj ((spiTickIsItsProcedure s x h.spi_legal h.spi_inv).symm.trans ht)
    exact h.spi_inv.word_lt hv

/-! ## Reset states, and the widths of the registers -/

/-- Settles O49: the records and connections `State.reset` carries are legal, and the units are in their reset states. -/
theorem resetStateIsGood : Obligations.ResetStateIsGood where
  par_ok := by decide
  wire_legal := by decide
  edge_lt := by decide
  uart_legal := by decide
  uart_fits := by decide
  uart_inv := .reset _
  spi_legal := by decide
  spi_fits := by decide
  spi_inv := .reset (p := Params.vectors) (by decide)

/-- R158: `skip` needs one bit more than `period`. -/
theorem UartInv.skip_lt {p : Params} {c : UartCfg} {u : UartState} (h : UartInv c u) (hl : c.legal p = true)
    (hf : c.fits p = true) : u.skip < 2 ^ p.skipW := by
  obtain ⟨hp, -, -⟩ := UartCfg.legal_iff.mp hl
  have hper : c.period < 2 ^ p.perW := of_decide_eq_true hf
  have hdelay := startDelay_bounds hp
  have hle := h.skip_le
  rw [Params.skipW, Nat.pow_succ]
  split at hle <;> omega

/-- Settles O52: each register is bounded by its invariant, and the bound by the legal record. -/
theorem registersFitTheirWidths : Obligations.RegistersFitTheirWidths := by
  intro s h
  obtain ⟨-, -, hun⟩ := UartCfg.legal_iff.mp h.uart_legal
  obtain ⟨-, -, -, -, hsn⟩ := SpiCfg.legal_iff.mp h.spi_legal
  have hto : s.spiCfg.frameTimeout < 2 ^ s.par.toW := of_decide_eq_true h.spi_fits
  have hcount := h.spi_inv.count_lt.le.trans hsn
  exact ⟨h.uart_inv.reg_lt_nbBits.trans_le (Nat.pow_le_pow_right (by decide) hun),
    Params.lt_cntW (h.uart_inv.bit_le.trans hun),
    h.uart_inv.skip_lt h.uart_legal h.uart_fits,
    h.spi_inv.reg_lt.trans_le (Nat.pow_le_pow_right (by decide) hcount),
    Params.lt_cntW hcount,
    h.spi_inv.countdown_le.trans_lt hto⟩

end Sys2Proof.Machine
end

section
/-! # A step of the block (40_bus_and_tick.md R115, R118, R119)

The units run one after the other, each on its own part of the state; good states stay good; without input nothing happens. -/

namespace Sys2Proof.Machine

/-! ## The units in turn -/

theorem andThen_next_right (r : Result) : andThen r .next = r := by cases r <;> rfl

theorem step_of_unitOrder {s : State} {us : List UnitId} (h : unitOrder s.par s.wire = some us) :
    step s = runUnits (nextCycle s) us (dropCycle s) := by
  simp [step, clockCycle, h]

theorem runUnits_append (c : Cycle) (us vs : List UnitId) (s : State) :
    runUnits c (us ++ vs) s = andThen (runUnits c us s) (runUnits c vs) := by
  induction us generalizing s with
  | nil => rfl
  | cons u us ih =>
    rw [List.cons_append, runUnits_cons, runUnits_cons, andThen_assoc]
    exact andThen_congr fun t _ => ih t

/-- Each of the six orders lists the three units. -/
theorem unitOrders_three {us : List UnitId} (h : us ∈ unitOrders) : ∃ a b d, us = [a, b, d] := by
  simp only [unitOrders, List.mem_cons, List.not_mem_nil, or_false] at h
  rcases h with h | h | h | h | h | h <;> exact ⟨_, _, _, h⟩

/-- Settles O47: the order is one of the six that respects the connections; without one the step is refused. -/
theorem stepRunsEachUnitsOperation : Obligations.StepRunsEachUnitsOperation := by
  refine fun s => ⟨fun hw => ?_, fun hw => ?_⟩
  · obtain ⟨us, hmem, horder, hresp⟩ := unitOrder_of_legal hw
    obtain ⟨a, b, d, rfl⟩ := unitOrders_three hmem
    refine ⟨a, b, d, hmem, hresp, (step_of_unitOrder horder).trans ?_⟩
    simp only [runUnits_cons]
    refine andThen_congr fun s1 _ => andThen_congr fun s2 _ => andThen_next_right _
  · simp [step, clockCycle, unitOrder_of_illegal hw]

/-! ## Good states -/

/-- What the pins select is a port operation. -/
theorem fetch_cases (c : Cycle) (u : UnitId) (s : State) :
    (∃ k, c.rst u = some k ∧ fetch c u s = .reset k) ∨ (∃ x, fetch c u s = .tick u x) ∨ fetch c u s = .idleCycle u := by
  rw [fetch_eq]
  cases hr : c.rst u with
  | some k => exact .inl ⟨k, rfl, rfl⟩
  | none =>
    cases tickInput c u s with
    | some x => exact .inr (.inl ⟨x, rfl⟩)
    | none => exact .inr (.inr rfl)

theorem State.Good.clearOut {s : State} (h : s.Good) (u : UnitId) : (s.clearOut u).Good := by
  cases u <;> exact { h with }

theorem State.Good.construct {s : State} (h : s.Good) {k : UnitCfg} (hk : resetAccepts s.par k = true) :
    (s.construct k).Good := by
  obtain ⟨hl, hf⟩ := resetAccepts_iff.mp hk
  cases k with
  | edge => exact { h with edge_lt := Nat.two_pow_pos _ }
  | uart c => exact { h with uart_legal := hl, uart_fits := hf, uart_inv := .reset c }
  | spi c => exact { h with spi_legal := hl, spi_fits := hf, spi_inv := .reset hl }

/-- What a unit performs in a cycle keeps a good state good. -/
theorem State.Good.fetched {s t : State} (h : s.Good) {c : Cycle} {u : UnitId} (ht : exec (fetch c u s) s = .next t) :
    t.Good := by
  rcases fetch_cases c u s with ⟨k, -, hk⟩ | ⟨x, hx⟩ | hi
  · rw [hk] at ht
    obtain ⟨ha, rfl⟩ := execReset_eq_next.mp ht
    exact (h.clearOut _).construct (by rwa [clearOut_par])
  · rw [hx] at ht
    obtain ⟨t', ht', hgood⟩ := tickCompletesInGoodStates s u x h
    exact Host.Outcome.next.inj (ht'.symm.trans ht) ▸ hgood
  · rw [hi] at ht
    exact Host.Outcome.next.inj ht ▸ h.clearOut u

/-- In a good state a unit's operation completes, unless it is a RESET with a record that is not accepted. -/
theorem State.Good.fetched_completes {s : State} (h : s.Good) {c : Cycle} (hc : c.resetsAccepted s.par) (u : UnitId) :
    ∃ t, exec (fetch c u s) s = .next t := by
  rcases fetch_cases c u s with ⟨k, hrst, hk⟩ | ⟨x, hx⟩ | hi
  · exact ⟨_, (congrArg (exec · s) hk).trans (execReset_of_accepts (hc u k hrst))⟩
  · obtain ⟨t, ht, -⟩ := tickCompletesInGoodStates s u x h
    exact ⟨t, (congrArg (exec · s) hx).trans ht⟩
  · exact ⟨_, congrArg (exec · s) hi⟩

theorem runUnits_good {c : Cycle} {us : List UnitId} {s t : State} (h : s.Good)
    (ht : runUnits c us s = .next t) : t.Good := by
  induction us generalizing s with
  | nil => exact Host.Outcome.next.inj ht ▸ h
  | cons u us ih =>
    obtain ⟨s1, h1, h2⟩ := andThen_eq_next.mp ht
    exact ih (h.fetched h1) h2

theorem runUnits_completes {c : Cycle} {us : List UnitId} {s : State} (h : s.Good)
    (hc : c.resetsAccepted s.par) : ∃ t, runUnits c us s = .next t := by
  induction us generalizing s with
  | nil => exact ⟨s, rfl⟩
  | cons u us ih =>
    obtain ⟨s1, h1⟩ := h.fetched_completes hc u
    obtain ⟨t, ht⟩ := ih (h.fetched h1) (exec_par h1 ▸ hc)
    exact ⟨t, andThen_eq_next.mpr ⟨s1, h1, ht⟩⟩

theorem State.Good.dropCycle {s : State} (h : s.Good) : (dropCycle s).Good := { h with }

/-- Settles O50: consuming a cycle and each unit's operation keep the state good. -/
theorem stepKeepsStatesGood : Obligations.StepKeepsStatesGood := by
  intro s t h ht
  obtain ⟨us, -, hrun⟩ := step_eq_next ht
  exact runUnits_good h.dropCycle hrun

/-- Settles O51: legal connections have an order, and along it every unit's operation completes. -/
theorem stepNeverBlocks : Obligations.StepNeverBlocks := by
  intro s h hc
  obtain ⟨us, -, horder, -⟩ := unitOrder_of_legal h.wire_legal
  obtain ⟨t, ht⟩ := runUnits_completes (us := us) (c := nextCycle s) h.dropCycle hc
  have hstep := (step_of_unitOrder horder).trans ht
  exact ⟨t, hstep, stepKeepsStatesGood s t h hstep⟩

/-! ## Without input -/

theorem respects_cons {w : Wiring} {before us : List UnitId} {u : UnitId} (h : w.respects before (u :: us) = true) :
    (∀ v, w.source u = .unit v → v ∈ before) ∧ w.respects (u :: before) us = true := by
  rw [Wiring.respects, Bool.and_eq_true] at h
  refine ⟨fun v hv => ?_, h.2⟩
  simpa [hv] using h.1

/-- In a cycle without input, a unit that is fed by the host or by a unit that presents nothing does nothing. -/
theorem fetch_idle {u : UnitId} {s : State} (h : ∀ v, s.wire.source u = .unit v → s.out v = none) :
    fetch Cycle.idle u s = .idleCycle u := by
  have hrst : Cycle.idle.rst u = none := by cases u <;> rfl
  refine fetch_of_no_tick hrst ?_
  cases hsrc : s.wire.source u with
  | host =>
    rw [tickInput_of_host hsrc]
    cases u <;> rfl
  | unit v => rw [tickInput_of_unit hsrc, h v hsrc]

theorem out_clearOut {u v : UnitId} {s : State} (h : v = u ∨ s.out v = none) : (s.clearOut u).out v = none := by
  rcases h with rfl | h
  · exact out_clearOut_self s v
  · cases u <;> cases v <;> simp_all [State.out, State.clearOut]

/-- Without input the units of a cycle present nothing, each after the one that feeds it. -/
theorem runUnits_idle {before us : List UnitId} {s : State} (hw : s.wire.respects before us = true)
    (hout : ∀ v ∈ before, s.out v = none) : runUnits Cycle.idle us s = .next (us.foldl State.clearOut s) := by
  induction us generalizing before s with
  | nil => rfl
  | cons u us ih =>
    obtain ⟨hsrc, hrest⟩ := respects_cons hw
    rw [runUnits_cons, fetch_idle fun v hv => hout v (hsrc v hv)]
    refine ih (s := s.clearOut u) (by rwa [clearOut_wire]) fun v hv => out_clearOut ?_
    exact (List.mem_cons.mp hv).imp_right (hout v)

/-- The state with nothing presented. -/
def State.quiet (s : State) : State := { s with edgeOut := none, uartOut := none, uartEvent := none, spiOut := none }

theorem foldl_clearOut_eq_quiet {us : List UnitId} (h : us ∈ unitOrders) (s : State) :
    us.foldl State.clearOut s = s.quiet := by
  simp only [unitOrders, List.mem_cons, List.not_mem_nil, or_false] at h
  rcases h with rfl | rfl | rfl | rfl | rfl | rfl <;> rfl

theorem dropCycle_of_input_nil {s : State} (h : s.input = []) : dropCycle s = s := by
  rw [dropCycle, h, List.tail_nil, ← h]

/-- A step without input (R119). -/
theorem step_of_input_nil {s : State} (hw : s.wire.legal s.par = true) (h : s.input = []) : step s = .next s.quiet := by
  obtain ⟨us, hmem, horder, hresp⟩ := unitOrder_of_legal hw
  have hcycle : nextCycle s = Cycle.idle := by rw [nextCycle, h, List.headD_nil]
  rw [step_of_unitOrder horder, hcycle, dropCycle_of_input_nil h, runUnits_idle hresp (by simp),
    foldl_clearOut_eq_quiet hmem]

/-- Settles O56: one step without input makes the state quiet, and every further one leaves it as it is. -/
theorem exhaustedInputHoldsTheState : Obligations.ExhaustedInputHoldsTheState := by
  intro s n hw hin
  rw [after_succ_of_next n (step_of_input_nil hw hin)]
  change after n s.quiet = some s.quiet
  have hquiet : step s.quiet = .next s.quiet := step_of_input_nil (s := s.quiet) hw hin
  induction n with
  | zero => rfl
  | succ n ih => exact (after_succ_of_next n hquiet).trans ih

/-! ## What a step does to one unit -/

theorem sameFor_refl (u : UnitId) (s : State) : sameFor u s s := by cases u <;> simp [sameFor]

theorem sameFor_symm {u : UnitId} {s t : State} (h : sameFor u s t) : sameFor u t s := by
  cases u <;> simpa [sameFor, eq_comm] using h

theorem sameFor_trans {u : UnitId} {r s t : State} (h : sameFor u r s) (h' : sameFor u s t) : sameFor u r t := by
  cases u <;> simp_all [sameFor]

theorem sameFor_dropCycle (u : UnitId) (s : State) : sameFor u s (dropCycle s) := by cases u <;> simp [sameFor, dropCycle]

theorem out_of_sameFor {u : UnitId} {s t : State} (h : sameFor u s t) : s.out u = t.out u := by
  cases u with
  | edge => exact h.2.2
  | uart => exact h.2.2.2.1
  | spi => exact h.2.2.2

theorem opUnit_fetch (c : Cycle) (u : UnitId) (s : State) : opUnit (fetch c u s) = u := by
  rcases fetch_cases c u s with ⟨k, hrst, hk⟩ | ⟨x, hx⟩ | hi
  · rw [hk]
    cases u <;> obtain ⟨a, -, rfl⟩ := Option.map_eq_some_iff.mp hrst <;> rfl
  · rw [hx]; rfl
  · rw [hi]; rfl

theorem runUnits_keeps_wiring {c : Cycle} {us : List UnitId} {s t : State} (h : runUnits c us s = .next t) :
    t.wire = s.wire ∧ t.input = s.input :=
  runUnits_keeps (P := fun r => r.wire = s.wire ∧ r.input = s.input)
    (fun _ _ _ hr hx => ⟨(exec_wire hx).trans hr.1, (exec_input hx).trans hr.2⟩) c us s t ⟨rfl, rfl⟩ h

/-- Units leave a unit alone that is not among them. -/
theorem runUnits_sameFor_of_notMem {c : Cycle} {us : List UnitId} {u : UnitId} {s t : State} (hu : u ∉ us)
    (h : runUnits c us s = .next t) : sameFor u s t := by
  induction us generalizing s with
  | nil => exact Host.Outcome.next.inj h ▸ sameFor_refl u s
  | cons v us ih =>
    obtain ⟨s1, h1, h2⟩ := andThen_eq_next.mp h
    exact sameFor_trans (exec_sameFor_of_ne h1 (by simpa [opUnit_fetch] using List.ne_of_not_mem_cons hu))
      (ih (List.not_mem_of_not_mem_cons hu) h2)

/-- In an order that respects the connections the source of a unit stands before it. -/
theorem mem_of_respects {w : Wiring} {before us vs : List UnitId} {u v : UnitId}
    (h : w.respects before (us ++ u :: vs) = true) (hsrc : w.source u = .unit v) : v ∈ before ∨ v ∈ us := by
  induction us generalizing before with
  | nil => exact .inl ((respects_cons h).1 v hsrc)
  | cons a us ih =>
    rcases ih (respects_cons h).2 with hmem | hmem
    · rcases List.mem_cons.mp hmem with rfl | hmem
      · exact .inr List.mem_cons_self
      · exact .inl hmem
    · exact .inr (List.mem_cons_of_mem a hmem)

theorem fetch_congr {c : Cycle} {u : UnitId} {s t : State} (hw : s.wire = t.wire)
    (hout : ∀ v, t.wire.source u = .unit v → s.out v = t.out v) : fetch c u s = fetch c u t := by
  have htick : tickInput c u s = tickInput c u t := by
    cases hsrc : t.wire.source u with
    | host => rw [tickInput_of_host hsrc, tickInput_of_host (hw ▸ hsrc)]
    | unit v => rw [tickInput_of_unit hsrc, tickInput_of_unit (hw ▸ hsrc), hout v hsrc]
  rw [fetch_eq, fetch_eq, htick]

theorem unitOrders_nodup {us : List UnitId} (h : us ∈ unitOrders) (u : UnitId) : us.Nodup ∧ u ∈ us := by
  revert us
  cases u <;> decide

/-- What a step does to one unit: the port operation that the unit's pins select, where the pins of a chained unit carry what
its source presents at the end of the step (R116, R118). -/
theorem step_unit {s t : State} (h : step s = .next t) (u : UnitId) :
    ∃ t', exec (fetch (nextCycle s) u t) s = .next t' ∧ sameFor u t' t := by
  obtain ⟨us, horder, hrun⟩ := step_eq_next h
  obtain ⟨us', hmem, horder', hresp⟩ := unitOrder_of_legal (p := s.par) (w := s.wire) (by
    by_contra hw
    rw [unitOrder_of_illegal (by simpa using hw)] at horder
    cases horder)
  obtain rfl : us' = us := Option.some.inj (horder'.symm.trans horder)
  obtain ⟨hnodup, hu⟩ := unitOrders_nodup hmem u
  obtain ⟨before, behind, rfl⟩ := List.append_of_mem hu
  rw [runUnits_append] at hrun
  obtain ⟨s1, h1, hrun⟩ := andThen_eq_next.mp hrun
  obtain ⟨t1, h2, h3⟩ := andThen_eq_next.mp hrun
  have hparts := List.nodup_append.mp hnodup
  have hbefore : u ∉ before := fun hm => hparts.2.2 u hm u List.mem_cons_self rfl
  have hbehind : u ∉ behind := (List.nodup_cons.mp hparts.2.1).1
  have hwire : t.wire = s.wire := (step_par_wire h).2
  have hfetch : fetch (nextCycle s) u s1 = fetch (nextCycle s) u t := by
    refine fetch_congr ((runUnits_keeps_wiring h1).1.trans hwire.symm) fun v hv => ?_
    have hv' : v ∈ before := (mem_of_respects hresp (hwire ▸ hv)).resolve_left List.not_mem_nil
    have hlast : v ∉ u :: behind := fun hm => hparts.2.2 v hv' v hm rfl
    exact out_of_sameFor (runUnits_sameFor_of_notMem hlast hrun)
  have hs1 : sameFor (opUnit (fetch (nextCycle s) u t)) s1 s := by
    rw [opUnit_fetch]
    exact sameFor_symm (sameFor_trans (sameFor_dropCycle u s) (runUnits_sameFor_of_notMem hbefore h1))
  rw [hfetch] at h2
  obtain ⟨t', ht', hsame⟩ := exec_next_of_sameFor hs1 h2
  rw [opUnit_fetch] at hsame
  exact ⟨t', ht', sameFor_trans (sameFor_symm hsame) (runUnits_sameFor_of_notMem hbehind h3)⟩

end Sys2Proof.Machine
end

section
/-! # Runs in which the host ticks one unit (40_bus_and_tick.md R117)

What one step does to the unit that is ticked, whatever the other units do. -/

namespace Sys2Proof.Machine

/-- A step to a good state, with the next cycle of the input consumed. -/
structure StepsTo (s t : State) : Prop where
  step : step s = .next t
  good : t.Good
  par : t.par = s.par
  wire : t.wire = s.wire
  input : t.input = s.input.tail

theorem step_input {s t : State} (h : step s = .next t) : t.input = s.input.tail := by
  obtain ⟨us, -, hrun⟩ := step_eq_next h
  exact (runUnits_keeps_wiring hrun).2

/-- A good state steps on in a cycle without RESET. -/
theorem State.Good.stepsTo {s : State} (h : s.Good) (hrst : ∀ u, (nextCycle s).rst u = none) : ∃ t, StepsTo s t := by
  obtain ⟨t, ht, hgood⟩ := stepNeverBlocks s h fun u k hk => nomatch (hrst u).symm.trans hk
  exact ⟨t, ht, hgood, (step_par_wire ht).1, (step_par_wire ht).2, step_input ht⟩

/-- A cycle in which the host ticks one unit: that unit's part of the next state is the one its TICK leaves. -/
theorem State.Good.stepsTo_of_hostTick {s : State} {u : UnitId} {x : Word} (h : s.Good) (hsrc : s.wire.source u = .host)
    (hrst : ∀ v, (nextCycle s).rst v = none) (hx : (nextCycle s).hostTick u = some x) :
    ∃ t t', StepsTo s t ∧ exec (.tick u x) s = .next t' ∧ sameFor u t' t := by
  obtain ⟨t, ht⟩ := h.stepsTo hrst
  obtain ⟨t', ht', hsame⟩ := step_unit ht.step u
  rw [fetch_of_tick (hrst u) ((tickInput_of_host (ht.wire ▸ hsrc)).trans hx)] at ht'
  exact ⟨t, t', ht, ht', hsame⟩

theorem nextCycle_of_cons {s : State} {c : Cycle} {cs : List Cycle} (h : s.input = c :: cs) : nextCycle s = c := by
  rw [nextCycle, h, List.headD_cons]

theorem StepsTo.input_of_cons {s t : State} {c : Cycle} {cs : List Cycle} (h : StepsTo s t) (hin : s.input = c :: cs) :
    t.input = cs := by
  rw [h.input, hin, List.tail_cons]

theorem rst_ofEdge_ofTick (x : Word) (u : UnitId) : (Cycle.ofEdge (Pins.ofTick x)).rst u = none := by cases u <;> rfl
theorem rst_ofUart_ofTick (x : Word) (u : UnitId) : (Cycle.ofUart (Pins.ofTick x)).rst u = none := by cases u <;> rfl
theorem rst_ofSpi_ofTick (x : Word) (u : UnitId) : (Cycle.ofSpi (Pins.ofTick x)).rst u = none := by cases u <;> rfl

/-- A step on a sample for EDGE. -/
theorem State.Good.edge_step {s : State} {x : Word} {cs : List Cycle} (h : s.Good) (hsrc : s.wire.edge = .host)
    (hx : x < 2 ^ s.par.w) (hin : s.input = Cycle.ofEdge (Pins.ofTick x) :: cs) :
    ∃ t, StepsTo s t ∧ t.edge = ⟨x⟩ ∧ t.edgeOut = if x ≠ s.edge.lastSample then some x else none := by
  have hc := nextCycle_of_cons hin
  obtain ⟨t, t', ht, hexec, -, hedge, hout⟩ :=
    h.stepsTo_of_hostTick (u := .edge) (x := x) hsrc (hc ▸ rst_ofEdge_ofTick x) (hc ▸ rfl)
  obtain rfl := Host.Outcome.next.inj ((edgeTickIsItsProcedure s x hx).symm.trans hexec)
  exact ⟨t, ht, hedge.symm, by simpa [Nat.xor_eq_zero_iff] using hout.symm⟩

/-- A step on a sample for UART. -/
theorem State.Good.uart_step {s : State} {x : Word} {cs : List Cycle} (h : s.Good) (hsrc : s.wire.uart = .host)
    (hin : s.input = Cycle.ofUart (Pins.ofTick x) :: cs) :
    ∃ t, StepsTo s t ∧ t.uartCfg = s.uartCfg ∧
      (t.uart, t.uartOut, t.uartEvent) = uartProcedure s.par s.uartCfg s.uart (x.testBit s.uartCfg.channel) := by
  have hc := nextCycle_of_cons hin
  obtain ⟨t, t', ht, hexec, -, hcfg, huart, hout, hevent⟩ :=
    h.stepsTo_of_hostTick (u := .uart) (x := x) hsrc (hc ▸ rst_ofUart_ofTick x) (hc ▸ rfl)
  obtain rfl := Host.Outcome.next.inj ((uartTickIsItsProcedure s x h.uart_legal).symm.trans hexec)
  exact ⟨t, ht, hcfg.symm, by rw [← huart, ← hout, ← hevent]⟩

/-- The tick of the SPI unit on a sample, on the unit's own records (R178). -/
def spiTickOn (p : Params) (c : SpiCfg) (u : SpiState) (x : Word) : SpiState × Option Word :=
  spiProcedure p c u (x.testBit c.clockChannel) (x.testBit c.frameChannel) (x.testBit c.dataChannel)

/-- A step on a sample for SPI. -/
theorem State.Good.spi_step {s : State} {x : Word} {cs : List Cycle} (h : s.Good) (hsrc : s.wire.spi = .host)
    (hin : s.input = Cycle.ofSpi (Pins.ofTick x) :: cs) :
    ∃ t, StepsTo s t ∧ t.spiCfg = s.spiCfg ∧ (t.spi, t.spiOut) = spiTickOn s.par s.spiCfg s.spi x := by
  have hc := nextCycle_of_cons hin
  obtain ⟨t, t', ht, hexec, -, hcfg, hspi, hout⟩ :=
    h.stepsTo_of_hostTick (u := .spi) (x := x) hsrc (hc ▸ rst_ofSpi_ofTick x) (hc ▸ rfl)
  obtain rfl := Host.Outcome.next.inj ((spiTickIsItsProcedure s x h.spi_legal h.spi_inv).symm.trans hexec)
  exact ⟨t, ht, hcfg.symm, by rw [← hspi, ← hout]; rfl⟩

end Sys2Proof.Machine
end

section
/-! # The output stream of EDGE (41_edge_filter.md R134, R135) -/

namespace Sys2Proof.Machine

/-- Settles O15, by induction on the samples: each step outputs the sample if it differs from the one before and remembers it. -/
theorem edgeOutputsAreTheChanges : Obligations.EdgeOutputsAreTheChanges := by
  intro s xs
  induction xs generalizing s with
  | nil => exact fun _ _ _ _ _ => rfl
  | cons x xs ih =>
    intro rest h hsrc hxs hin
    obtain ⟨hx, hxs⟩ := List.forall_mem_cons.mp hxs
    obtain ⟨t, ht, hedge, hout⟩ := h.edge_step hsrc hx hin
    have hrest := ih t rest ht.good (ht.wire ▸ hsrc) (ht.par ▸ hxs) (ht.input_of_cons hin)
    rw [List.length_cons, outputs_succ_of_next _ _ ht.step, hrest, hedge, State.out, hout, changes]
    by_cases hd : x = s.edge.lastSample <;> simp [hd]

/-- Further copies of the sample before are no changes. -/
theorem changes_replicate_self (b : Word) (n : Nat) : changes b (List.replicate n b) = [] := by
  induction n with
  | zero => rfl
  | succ n ih => rw [List.replicate_succ, changes, if_pos rfl, ih]

/-- Settles O16: of the copies only the first differs from the sample before it. -/
theorem identicalSamplesEmitOnce : Obligations.IdenticalSamplesEmitOnce := by
  intro s b n rest h hsrc hb hne hn hin
  obtain ⟨m, rfl⟩ := Nat.exists_eq_add_of_le' hn
  have hall : ∀ x ∈ List.replicate (m + 1) b, x < 2 ^ s.par.w := fun x hx => (List.eq_of_mem_replicate hx).symm ▸ hb
  have hout := edgeOutputsAreTheChanges s _ rest h hsrc hall hin
  rwa [List.length_replicate, List.replicate_succ, changes, if_neg hne, changes_replicate_self] at hout

end Sys2Proof.Machine
end

section
/-! # Runs of the UART unit on its own (42_uart_framer.md R140)

The procedure of a tick run over a list of levels of the line, and that the block does the same to its UART. -/

namespace Sys2Proof.Machine

/-- The procedure of R140 run over the levels of the line: the last state, the words and the events. -/
def uartRun (p : Params) (c : UartCfg) (u : UartState) : List Bool → UartState × List Word × List Event
  | [] => (u, [], [])
  | i :: is =>
    let r := uartProcedure p c u i
    let q := uartRun p c r.1 is
    (q.1, r.2.1.toList ++ q.2.1, r.2.2.toList ++ q.2.2)

/-- The levels that the UART sees in a list of samples (R110). -/
def levels (c : UartCfg) (xs : List Word) : List Bool := xs.map fun x => x.testBit c.channel

theorem uartCycles_append (xs ys : List Word) : uartCycles (xs ++ ys) = uartCycles xs ++ uartCycles ys :=
  List.map_append

/-- The UART of a block that the host ticks does what the unit does on its own. -/
theorem State.Good.uart_run {s : State} {xs : List Word} {rest : List Cycle} (h : s.Good) (hsrc : s.wire.uart = .host)
    (hin : s.input = uartCycles xs ++ rest) :
    ∃ t, after xs.length s = some t ∧
      (t.uart, outputs .uart xs.length s, events xs.length s) = uartRun s.par s.uartCfg s.uart (levels s.uartCfg xs) := by
  induction xs generalizing s with
  | nil => exact ⟨s, rfl, rfl⟩
  | cons x xs ih =>
    obtain ⟨t, ht, hcfg, hproc⟩ := h.uart_step hsrc hin
    obtain ⟨t', hafter, hrun⟩ := ih ht.good (ht.wire ▸ hsrc) (ht.input_of_cons hin)
    refine ⟨t', (after_succ_of_next _ ht.step).trans hafter, ?_⟩
    simp only [List.length_cons, outputs_succ_of_next _ _ ht.step, events_succ_of_next _ ht.step, levels, List.map_cons,
      uartRun, ← hproc]
    rw [ht.par, hcfg, levels] at hrun
    rw [← hrun]
    rfl

section

variable {p : Params} {c : UartCfg} {u v w : UartState} {is js : List Bool}

theorem uartRun_append {ws ws' : List Word} {es es' : List Event} (h : uartRun p c u is = (v, ws, es))
    (h' : uartRun p c v js = (w, ws', es')) : uartRun p c u (is ++ js) = (w, ws ++ ws', es ++ es') := by
  induction is generalizing u ws es with
  | nil =>
    cases h
    exact h'
  | cons i is ih =>
    cases h
    simp [uartRun, ih rfl]

theorem uartRun_cons {i : Bool} {r : UartState} {out : Option Word} {e : Option Event} {ws : List Word} {es : List Event}
    (h : uartProcedure p c u i = (r, out, e)) (h' : uartRun p c r is = (v, ws, es)) :
    uartRun p c u (i :: is) = (v, out.toList ++ ws, e.toList ++ es) := by
  simp [uartRun, h, h']

/-- A tick on which nothing happens, on every level of a run. -/
theorem uartRun_of_fixed (h : ∀ i ∈ is, uartProcedure p c u i = (u, none, none)) : uartRun p c u is = (u, [], []) := by
  induction is with
  | nil => rfl
  | cons i is ih =>
    obtain ⟨hi, his⟩ := List.forall_mem_cons.mp h
    exact uartRun_cons hi (ih his)

/-! ## The ticks of a frame -/

/-- The unit ignores the line while `skip > 0` (R144). -/
theorem uartRun_skip (h : is.length ≤ u.skip) : uartRun p c u is = ({ u with skip := u.skip - is.length }, [], []) := by
  induction is generalizing u with
  | nil => rfl
  | cons i is ih =>
    rw [List.length_cons] at h
    have hpos : 0 < u.skip := by omega
    have htick : uartProcedure p c u i = ({ u with skip := u.skip - 1 }, none, none) :=
      uartProcedure_of_test (o := .skip) hpos
    have hrest := ih (u := { u with skip := u.skip - 1 }) (Nat.le_sub_one_of_lt h)
    rw [Nat.sub_sub, Nat.add_comm] at hrest
    exact uartRun_cons htick hrest

/-- The UART in a frame of the word `v` with `k` data bits collected, `skip` ticks before it looks at the line again. -/
def inFrame (v : Word) (k skip : Nat) : UartState := ⟨.shift, v % 2 ^ k, k, skip⟩

theorem uartProcedure_start (hm : u.mode = .idle) (hs : u.skip = 0) (v : Word) :
    uartProcedure p c u false = (inFrame v 0 (startDelay c.period), none, none) := by
  rw [uartProcedure_of_test (o := .start) ⟨hs, hm, rfl⟩, inFrame, pow_zero, Nat.mod_one]
  rfl

theorem uartProcedure_data {v : Word} {k : Nat} (hk : k < c.nbBits) (hn : c.nbBits ≤ p.wordW) :
    uartProcedure p c (inFrame v k 0) (v.testBit k) = (inFrame v (k + 1) (c.period - 1), none, none) := by
  have hreg : orBit p (v % 2 ^ k) (v.testBit k) k = v % 2 ^ (k + 1) := by
    rw [orBit_eq_add _ (Nat.mod_lt _ (Nat.two_pow_pos k)) (by omega), Nat.mod_pow_succ, Nat.toNat_testBit, Nat.mul_comm]
  rw [uartProcedure_of_test (o := .data) ⟨rfl, rfl, hk⟩, uartEffect]
  simp only [inFrame, hreg]

/-- After data bit `k` the unit ignores the line for the rest of the bit's period. -/
theorem uartRun_data {v : Word} {k : Nat} (hk : k < c.nbBits) (hn : c.nbBits ≤ p.wordW) (his : is.length ≤ c.period - 1) :
    uartRun p c (inFrame v k 0) (v.testBit k :: is) = (inFrame v (k + 1) (c.period - 1 - is.length), [], []) :=
  uartRun_cons (uartProcedure_data hk hn) (uartRun_skip (u := inFrame v (k + 1) (c.period - 1)) his)

end

/-! ## A frame -/

theorem take_add_succ_of_getElem? {α : Type} {l : List α} {m : Nat} {b : α} (h : l[m]? = some b) (r : Nat) :
    l.take (m + (r + 1)) = l.take m ++ b :: (l.drop (m + 1)).take r := by
  obtain ⟨hm, rfl⟩ := List.getElem?_eq_some_iff.mp h
  rw [List.take_add, List.drop_eq_getElem_cons hm, List.take_succ_cons]

section

variable {p : Params} {c : UartCfg} {u : UartState} {v : Word} {is : List Bool}
  (hl : c.legal p = true) (hbits : ∀ j < c.nbBits, is[startDelay c.period + j * c.period]? = some (v.testBit j))
include hl hbits

/-- Once the unit has come to data bit `k`, it looks at it and then skips up to the tick of the next bit. -/
theorem uartRun_after_bit {k r : Nat} (hk : k < c.nbBits) (hr : r < c.period)
    (hlen : startDelay c.period + k * c.period + (r + 1) ≤ is.length)
    (hbefore : uartRun p c u (false :: is.take (startDelay c.period + k * c.period)) = (inFrame v k 0, [], [])) :
    uartRun p c u (false :: is.take (startDelay c.period + k * c.period + (r + 1))) =
      (inFrame v (k + 1) (c.period - 1 - r), [], []) := by
  obtain ⟨-, -, hn⟩ := UartCfg.legal_iff.mp hl
  set m := startDelay c.period + k * c.period
  have hlenr : ((is.drop (m + 1)).take r).length = r :=
    List.length_take_of_le (by rw [List.length_drop]; omega)
  have hbit := uartRun_data (p := p) (v := v) (is := (is.drop (m + 1)).take r) hk hn (by omega)
  rw [hlenr] at hbit
  rw [take_add_succ_of_getElem? (hbits k hk), ← List.cons_append]
  exact uartRun_append hbefore hbit

variable (hm : u.mode = .idle) (hs : u.skip = 0)
include hm hs

/-- R156: an Idle unit that sees a low level looks at bit `k` (the stop bit for `k = nb_bits`) at its stated tick; it has
collected the `k` bits before it and presented nothing. -/
theorem uartRun_at_bit {k : Nat} (hk : k ≤ c.nbBits) (hlen : startDelay c.period + k * c.period ≤ is.length) :
    uartRun p c u (false :: is.take (startDelay c.period + k * c.period)) = (inFrame v k 0, [], []) := by
  obtain ⟨hp, -, -⟩ := UartCfg.legal_iff.mp hl
  induction k with
  | zero =>
    rw [Nat.zero_mul, Nat.add_zero] at hlen ⊢
    have htake := List.length_take_of_le hlen
    have hskip := uartRun_skip (p := p) (c := c) (u := inFrame v 0 (startDelay c.period)) htake.le
    rw [htake, inFrame, Nat.sub_self] at hskip
    exact uartRun_cons (uartProcedure_start hm hs v) hskip
  | succ k ih =>
    rw [Nat.succ_mul, ← Nat.add_assoc] at hlen ⊢
    have hnext := uartRun_after_bit hl hbits (r := c.period - 1) (Nat.lt_of_succ_le hk) (by omega) (by omega)
      (ih (by omega) (by omega))
    rwa [Nat.sub_add_cancel hp, Nat.sub_self] at hnext

/-- R156: just before every other tick up to the stop bit's the unit has ticks to skip. -/
theorem uartRun_between {n : Nat} (hn : n < startDelay c.period + c.nbBits * c.period)
    (hne : ∀ k ≤ c.nbBits, n ≠ startDelay c.period + k * c.period) (hlen : n ≤ is.length) :
    ∃ k skip, 0 < skip ∧ uartRun p c u (false :: is.take n) = (inFrame v k skip, [], []) := by
  obtain ⟨hp, -, -⟩ := UartCfg.legal_iff.mp hl
  rcases Nat.lt_or_ge n (startDelay c.period) with hlt | hge
  · have htake := List.length_take_of_le hlen
    have hskip := uartRun_skip (p := p) (c := c) (u := inFrame v 0 (startDelay c.period)) (htake.trans_le hlt.le)
    rw [htake] at hskip
    exact ⟨0, startDelay c.period - n, by omega, uartRun_cons (uartProcedure_start hm hs v) hskip⟩
  · obtain ⟨j, rfl⟩ := Nat.exists_eq_add_of_le hge
    have hk : j / c.period < c.nbBits := Nat.div_lt_of_lt_mul (by rw [Nat.mul_comm]; omega)
    have hj : j / c.period * c.period + j % c.period = j := Nat.div_add_mod' j c.period
    have hr : j % c.period ≠ 0 := fun h0 => hne _ hk.le (by omega)
    have hrp : j % c.period < c.period := Nat.mod_lt _ hp
    have hnext := uartRun_after_bit hl hbits (r := j % c.period - 1) hk (by omega) (by omega)
      (uartRun_at_bit hl hbits hm hs hk.le (by omega))
    rw [Nat.sub_add_cancel (Nat.one_le_iff_ne_zero.mpr hr), Nat.add_assoc, hj] at hnext
    exact ⟨_, _, by omega, hnext⟩

/-- The unit comes to the stop bit of a frame with the data bits collected. -/
theorem uartRun_to_stop (hlen : is.length = startDelay c.period + c.nbBits * c.period) :
    uartRun p c u (false :: is) = (inFrame v c.nbBits 0, [], []) := by
  have h := uartRun_at_bit hl hbits hm hs le_rfl hlen.ge
  rwa [← hlen, List.take_length] at h

end

end Sys2Proof.Machine
end

section
/-! # The frames of the UART (42_uart_framer.md R156, R157, 70_reset_and_hazards.md R240) -/

namespace Sys2Proof.Machine

theorem uart_skip_eq_zero_of_idle {s : State} (h : s.Good) (hm : s.uart.mode = .idle) : s.uart.skip = 0 :=
  h.uart_inv.skip_zero (by simp [hm])

/-! ## Where the samples fall -/

/-- Any levels at the places of the data bits are the bits of some word. -/
theorem exists_testBit_eq (n : Nat) (f : Nat → Bool) : ∃ v : Word, ∀ j < n, f j = v.testBit j :=
  ⟨Nat.ofBits fun i : Fin n => f i, fun j hj => (Nat.testBit_ofBits_lt (fun i : Fin n => f i) j hj).symm⟩

/-- The UART after a part of the samples. -/
theorem State.Good.uart_after {s : State} {xs : List Word} {rest : List Cycle} {n : Nat} (h : s.Good)
    (hsrc : s.wire.uart = .host) (hin : s.input = uartCycles xs ++ rest) (hn : n ≤ xs.length) :
    ∃ t, after n s = some t ∧ t.uart = (uartRun s.par s.uartCfg s.uart ((levels s.uartCfg xs).take n)).1 := by
  have hsplit : s.input = uartCycles (xs.take n) ++ (uartCycles (xs.drop n) ++ rest) := by
    rw [← List.append_assoc, ← uartCycles_append, List.take_append_drop, hin]
  obtain ⟨t, hafter, hrun⟩ := h.uart_run hsrc hsplit
  rw [List.length_take_of_le hn] at hafter hrun
  exact ⟨t, hafter, by rw [levels, ← List.map_take, ← levels, ← hrun]⟩

/-- Settles O32: the levels at the stated ticks are the bits of a word, in whose frame the unit is. -/
theorem uartSamplesAtTheStatedTicks : Obligations.UartSamplesAtTheStatedTicks := by
  intro s x xs rest h hsrc hm hx hin hlen
  set d := startDelay s.uartCfg.period
  set is := levels s.uartCfg xs with his
  have hl := h.uart_legal
  obtain ⟨hp, -, -⟩ := UartCfg.legal_iff.mp hl
  have hs := uart_skip_eq_zero_of_idle h hm
  have hislen : is.length = xs.length := List.length_map _
  obtain ⟨v, hv⟩ := exists_testBit_eq s.uartCfg.nbBits fun j => is.getD (d + j * s.uartCfg.period) false
  have hbits : ∀ j < s.uartCfg.nbBits, is[d + j * s.uartCfg.period]? = some (v.testBit j) := by
    intro j hj
    have hlt := Nat.mul_lt_mul_of_pos_right hj hp
    have hin' : d + j * s.uartCfg.period < is.length := by omega
    rw [← hv j hj, List.getElem?_eq_getElem hin', List.getD_eq_getElem _ _ hin']
  have hafter {n : Nat} (hn : n ≤ xs.length) :
      ∃ t, after (1 + n) s = some t ∧ t.uart = (uartRun s.par s.uartCfg s.uart (false :: is.take n)).1 := by
    obtain ⟨t, ht, hrun⟩ := h.uart_after (n := n + 1) hsrc hin (Nat.succ_le_succ hn)
    rw [levels, List.map_cons, List.take_succ_cons, hx, ← levels, ← his] at hrun
    exact ⟨t, Nat.add_comm 1 n ▸ ht, hrun⟩
  constructor
  · intro k hk
    have hle := Nat.mul_le_mul_right s.uartCfg.period hk
    obtain ⟨t, ht, hrun⟩ := hafter (n := d + k * s.uartCfg.period) (by omega)
    rw [uartRun_at_bit hl hbits hm hs hk (by omega)] at hrun
    exact ⟨t, by rwa [Nat.add_assoc], by simp [hrun, inFrame]⟩
  · intro n hn hne
    obtain ⟨t, ht, hrun⟩ := hafter (n := n) (by omega)
    obtain ⟨k, skip, hpos, hbetween⟩ := uartRun_between hl hbits hm hs hn hne (by omega)
    rw [hbetween] at hrun
    exact ⟨t, ht, by rwa [hrun]⟩

/-! ## A line held low -/

theorem uartRun_low {p : Params} {c : UartCfg} {u : UartState} (hl : c.legal p = true) (hm : u.mode = .idle)
    (hs : u.skip = 0) (m : Nat) :
    uartRun p c u (List.replicate (startDelay c.period + c.nbBits * c.period + 2 + m) false) =
      ({ inFrame 0 c.nbBits 0 with mode := .brk }, [], [.brk]) := by
  have hframe := uartRun_to_stop (u := u) (v := 0)
    (is := List.replicate (startDelay c.period + c.nbBits * c.period) false) hl (fun j hj => by
      obtain ⟨hp, -, -⟩ := UartCfg.legal_iff.mp hl
      have hlt := Nat.mul_lt_mul_of_pos_right hj hp
      simp [hlt]) hm hs List.length_replicate
  have hbreak : uartProcedure p c (inFrame 0 c.nbBits 0) false =
      ({ inFrame 0 c.nbBits 0 with mode := .brk }, none, some .brk) :=
    uartProcedure_of_test (o := .brk) ⟨rfl, rfl, Nat.lt_irrefl _, rfl, Nat.zero_mod _⟩
  have hwait : uartRun p c { inFrame 0 c.nbBits 0 with mode := .brk } (List.replicate m false) = (_, [], []) :=
    uartRun_of_fixed fun i hi => uartProcedure_of_test (o := .bwait) ⟨rfl, rfl, List.eq_of_mem_replicate hi⟩
  have hsplit : List.replicate (startDelay c.period + c.nbBits * c.period + 2 + m) false =
      (false :: List.replicate (startDelay c.period + c.nbBits * c.period) false) ++ false :: List.replicate m false := by
    rw [← List.replicate_succ, ← List.replicate_succ, ← List.replicate_add]
    congr 1
    omega
  rw [hsplit]
  exact uartRun_append hframe (uartRun_cons hbreak hwait)

/-- Settles O34: a start bit, `nb_bits` zeros and a low stop bit are a break, and a low line keeps the unit in it. -/
theorem lowLineBreaksOnce : Obligations.LowLineBreaksOnce := by
  intro s xs rest h hsrc hm hlow hlen hin
  obtain ⟨m, hxs⟩ := Nat.exists_eq_add_of_le hlen
  have hlevels : levels s.uartCfg xs =
      List.replicate (startDelay s.uartCfg.period + s.uartCfg.nbBits * s.uartCfg.period + 2 + m) false := by
    rw [Nat.add_right_comm _ _ 2, ← hxs]
    exact List.map_eq_replicate_iff.mpr hlow
  obtain ⟨t, hafter, hrun⟩ := h.uart_run hsrc hin
  rw [hlevels, uartRun_low h.uart_legal hm (uart_skip_eq_zero_of_idle h hm)] at hrun
  obtain ⟨huart, hrest⟩ := Prod.mk.inj hrun
  obtain ⟨hout, hevents⟩ := Prod.mk.inj hrest
  exact ⟨hevents, hout, t, hafter, by rw [huart]⟩

/-! ## The round trip -/

theorem testBit_oneChannel (k i : Nat) (b : Bool) : (oneChannel k b).testBit i = (b && decide (k = i)) := by
  cases b <;> simp [oneChannel, Nat.one_shiftLeft, Nat.testBit_two_pow]

/-- The levels of a frame: tick `j` shows the level of bit `floor (j / period)` (R96). -/
theorem levels_uframe (c : UartCfg) (v : Word) :
    levels c (uframe c v) = (List.range ((c.nbBits + 2) * c.period)).map fun j => frameLevel c v (j / c.period) := by
  simp [levels, uframe, testBit_oneChannel]

theorem frameLevel_data {c : UartCfg} {k : Nat} (v : Word) (h : k < c.nbBits) : frameLevel c v (k + 1) = v.testBit k := by
  rw [frameLevel, if_neg (Nat.succ_ne_zero k), if_pos (Nat.succ_le_of_lt h), Nat.add_sub_cancel]

theorem frameLevel_stop {c : UartCfg} {k : Nat} (v : Word) (h : c.nbBits < k) : frameLevel c v k = true := by
  rw [frameLevel, if_neg (by omega), if_neg (by omega)]

/-- R143: the tick that looks at bit `k` lies in that bit's period of the frame. -/
theorem sample_div_period {p : Nat} (h : 1 ≤ p) (k : Nat) : (1 + (startDelay p + k * p)) / p = k + 1 := by
  obtain ⟨hlow, hhigh⟩ := startDelay_bounds h
  have hsplit : 1 + (startDelay p + k * p) = 1 + startDelay p - p + p * (k + 1) := by
    rw [Nat.mul_succ, Nat.mul_comm p k]
    omega
  rw [hsplit, Nat.add_mul_div_left _ _ h, Nat.div_eq_of_lt (by omega), Nat.zero_add]

/-- A list of levels taken apart at its first level and at a later one. -/
theorem map_range_split {α : Type} (f : Nat → α) (a b : Nat) :
    (List.range (1 + a + b + 1)).map f =
      (f 0 :: (List.range a).map fun j => f (1 + j)) ++ f (1 + a) :: (List.range b).map fun j => f (1 + a + (1 + j)) := by
  rw [show 1 + a + b + 1 = 1 + a + (1 + b) by omega, List.range_add, List.range_add, List.range_add]
  simp [Function.comp_def]

/-- A frame gives its word, and the unit is Idle again when it ends. -/
theorem uartRun_uframe {p : Params} {c : UartCfg} {u : UartState} {v : Word} (hl : c.legal p = true) (hm : u.mode = .idle)
    (hs : u.skip = 0) (hv : v < 2 ^ c.nbBits) :
    uartRun p c u (levels c (uframe c v)) = ({ inFrame v c.nbBits 0 with mode := .idle }, [v], []) := by
  obtain ⟨hp, -, -⟩ := UartCfg.legal_iff.mp hl
  set stop := startDelay c.period + c.nbBits * c.period with hstop
  have hend : 1 + stop < (c.nbBits + 2) * c.period := by
    obtain ⟨-, hhigh⟩ := startDelay_bounds hp
    rw [Nat.add_mul]
    omega
  obtain ⟨tail, htail⟩ := Nat.exists_eq_add_of_lt hend
  have hstopLevel : frameLevel c v ((1 + stop) / c.period) = true := by
    rw [sample_div_period hp]
    exact frameLevel_stop v (Nat.lt_succ_self _)
  have hsplit : levels c (uframe c v) =
      (false :: (List.range stop).map fun j => frameLevel c v ((1 + j) / c.period)) ++
        true :: (List.range tail).map fun j => frameLevel c v ((1 + stop + (1 + j)) / c.period) := by
    rw [levels_uframe, htail, map_range_split, Nat.zero_div, hstopLevel]
    rfl
  have hstopRun : uartProcedure p c (inFrame v c.nbBits 0) true =
      ({ inFrame v c.nbBits 0 with mode := .idle }, some v, none) := by
    rw [uartProcedure_of_test (o := .stop) ⟨rfl, rfl, Nat.lt_irrefl _, rfl⟩, uartEffect]
    simp only [inFrame, Nat.mod_eq_of_lt hv]
  rw [hsplit]
  refine uartRun_append (uartRun_to_stop (v := v) hl (fun j hj => ?_) hm hs (by simp [hstop]))
    (uartRun_cons hstopRun (uartRun_of_fixed fun i hi => uartProcedure_of_test (o := .idle) ⟨rfl, rfl, ?_⟩))
  · have hlt := Nat.mul_lt_mul_of_pos_right hj hp
    rw [List.getElem?_map, List.getElem?_range (by omega), Option.map_some, sample_div_period hp, frameLevel_data v hj]
  · obtain ⟨j, -, rfl⟩ := List.mem_map.mp hi
    have hle : (1 + stop) / c.period ≤ (1 + stop + (1 + j)) / c.period := Nat.div_le_div_right (Nat.le_add_right _ _)
    rw [sample_div_period hp] at hle
    exact frameLevel_stop v hle

/-- Frames back to back: each begins with the unit Idle. -/
theorem uartRun_uframes {p : Params} {c : UartCfg} {ws : List Word} (hl : c.legal p = true)
    (hws : ∀ v ∈ ws, v < 2 ^ c.nbBits) {u : UartState} (hm : u.mode = .idle) (hs : u.skip = 0) :
    ∃ w, uartRun p c u (levels c (ws.flatMap (uframe c))) = (w, ws, []) := by
  induction ws generalizing u with
  | nil => exact ⟨u, rfl⟩
  | cons v ws ih =>
    obtain ⟨hv, hws⟩ := List.forall_mem_cons.mp hws
    obtain ⟨w, hrest⟩ := ih hws (u := { inFrame v c.nbBits 0 with mode := .idle }) rfl rfl
    rw [List.flatMap_cons, levels, List.map_append]
    exact ⟨w, uartRun_append (uartRun_uframe hl hm hs hv) hrest⟩

/-- Settles O33: each frame gives its word and leaves the unit Idle for the next. -/
theorem uartDecodesWhatUframeEncodes : Obligations.UartDecodesWhatUframeEncodes := by
  intro s ws rest h hsrc hm hws hin
  obtain ⟨t, -, hrun⟩ := h.uart_run hsrc hin
  obtain ⟨w, hframes⟩ := uartRun_uframes h.uart_legal hws hm (uart_skip_eq_zero_of_idle h hm)
  obtain ⟨-, hresult⟩ := Prod.mk.inj (hrun.trans hframes)
  exact Prod.mk.inj hresult

end Sys2Proof.Machine
end

section
/-! # Runs of the SPI unit without timeout (43_spi_framer.md R181, 30_encoding.md R98) -/

namespace Sys2Proof.Machine

section

variable {p : Params} {c : SpiCfg} {u : SpiState} {ck fr da : Bool}

/-- Without timeout a tick is the frame start, the shift and the latch. -/
theorem spiProcedure_of_inactive (ht : ¬ SpiCfg.timeoutActive c) :
    spiProcedure p c u ck fr da =
      let r := spiProc3 p c ck fr da (spiProc1 c fr u)
      ({ r.1 with lastClock := ck, lastFrame := fr }, r.2) := by
  rw [spiProcedure, spiProc2_of_inactive _ _ ht]

/-- Phase 3 without a sampling edge. -/
theorem spiProc3_of_no_edge (he : ¬ (ck ≠ u.lastClock ∧ ck = c.clockEdge)) : spiProc3 p c ck fr da u = (u, none) := by
  simp only [spiProc3, if_neg he, ite_self]

/-- Phase 3 on a sampling edge with the gate open, the word not complete. -/
theorem spiProc3_shift (hg : c.frameEnable = false ∨ fr = c.frameActive) (he : ck ≠ u.lastClock ∧ ck = c.clockEdge)
    (hf : u.count + 1 ≠ c.nbBits) :
    spiProc3 p c ck fr da u = ({ u with reg := shiftIn p u.reg da, count := u.count + 1 }, none) := by
  simp only [spiProc3, if_pos hg, if_pos he, if_neg hf]

/-- Phase 3 on a sampling edge with the gate open that completes the word. -/
theorem spiProc3_emit (hg : c.frameEnable = false ∨ fr = c.frameActive) (he : ck ≠ u.lastClock ∧ ck = c.clockEdge)
    (hf : u.count + 1 = c.nbBits) :
    spiProc3 p c ck fr da u =
      ({ u with reg := 0, count := 0, countdown := c.frameTimeout }, some (shiftIn p u.reg da)) := by
  simp only [spiProc3, if_pos hg, if_pos he, if_pos hf]

theorem spiProc1_of_ungated (hg : c.frameEnable = false) : spiProc1 c fr u = u :=
  if_neg fun h => Bool.false_ne_true (hg.symm.trans h.1)

end

/-! ## The output stream of the unit -/

/-- The words that the unit outputs on a list of samples. -/
def spiWords (p : Params) (c : SpiCfg) (u : SpiState) : List Word → List Word
  | [] => []
  | x :: xs => (spiTickOn p c u x).2.toList ++ spiWords p c (spiTickOn p c u x).1 xs

/-- The SPI unit of a block that the host ticks outputs what the unit does on its own. -/
theorem State.Good.outputs_spi {s : State} {xs : List Word} {rest : List Cycle} (h : s.Good) (hsrc : s.wire.spi = .host)
    (hin : s.input = spiCycles xs ++ rest) : outputs .spi xs.length s = spiWords s.par s.spiCfg s.spi xs := by
  induction xs generalizing s with
  | nil => rfl
  | cons x xs ih =>
    obtain ⟨t, ht, hcfg, htick⟩ := h.spi_step hsrc hin
    have hrest := ih ht.good (ht.wire ▸ hsrc) (ht.input_of_cons hin)
    rw [ht.par, hcfg] at hrest
    rw [List.length_cons, outputs_succ_of_next _ _ ht.step, hrest, spiWords, ← htick]
    rfl

/-! ## Words and edges (R181) -/

section

variable {p : Params} {c : SpiCfg} {u : SpiState} (hg : c.frameEnable = false) (ht : ¬ SpiCfg.timeoutActive c)
include hg ht

/-- The words that a tick outputs and the bits it leaves pending account for the bits pending before and the edge. -/
theorem spiTickOn_counts (x : Word) :
    (spiTickOn p c u x).2.toList.length * c.nbBits + (spiTickOn p c u x).1.count =
      u.count + if x.testBit c.clockChannel ≠ u.lastClock ∧ x.testBit c.clockChannel = c.clockEdge then 1 else 0 := by
  rw [spiTickOn, spiProcedure_of_inactive ht, spiProc1_of_ungated hg]
  by_cases he : x.testBit c.clockChannel ≠ u.lastClock ∧ x.testBit c.clockChannel = c.clockEdge
  · rw [if_pos he]
    by_cases hf : u.count + 1 = c.nbBits
    · rw [spiProc3_emit (.inl hg) he hf]
      simp [hf]
    · rw [spiProc3_shift (.inl hg) he hf]
      simp
  · rw [if_neg he, spiProc3_of_no_edge he]
    simp

theorem length_spiWords (h : SpiInv c u) (xs : List Word) :
    (spiWords p c u xs).length = (u.count + edgeCount c u.lastClock xs) / c.nbBits := by
  induction xs generalizing u with
  | nil => exact (Nat.div_eq_of_lt h.count_lt).symm
  | cons x xs ih =>
    have hcount := spiTickOn_counts (p := p) (u := u) hg ht x
    have hinv : SpiInv c (spiTickOn p c u x).1 := h.procedure p _ _ _
    have hclock : (spiTickOn p c u x).1.lastClock = x.testBit c.clockChannel := rfl
    have hpos : 0 < c.nbBits := Nat.zero_lt_of_lt h.count_lt
    rw [spiWords, List.length_append, ih hinv, hclock, edgeCount, ← Nat.add_assoc, ← hcount,
      Nat.add_assoc (_ * _), Nat.add_comm (_ * _), Nat.add_mul_div_right _ _ hpos, Nat.add_comm]

end

/-- Settles O44: the bits of the words output and the bits pending at the end are those of the sampling edges. -/
theorem spiWordsAreEdgesOverBits : Obligations.SpiWordsAreEdgesOverBits := by
  intro s xs rest h hsrc hg ht hin
  rw [h.outputs_spi hsrc hin, length_spiWords hg ht h.spi_inv]

/-! ## The round trip of a word -/

/-- On distinct channels a sample shows the three levels it is made of. -/
theorem testBit_spiSample {c : SpiCfg} (hkd : c.clockChannel ≠ c.dataChannel) (hkf : c.clockChannel ≠ c.frameChannel)
    (hdf : c.dataChannel ≠ c.frameChannel) (ck da fr : Bool) :
    (spiSample c ck da fr).testBit c.clockChannel = ck ∧ (spiSample c ck da fr).testBit c.dataChannel = da ∧
      (spiSample c ck da fr).testBit c.frameChannel = fr := by
  simp [spiSample, Nat.testBit_or, testBit_oneChannel, hkd, hkf, hdf, hkd.symm, hkf.symm, hdf.symm]

/-- A frame start changes nothing where the frame level was the same before, or where no bit is pending. -/
theorem spiProc1_of_settled {c : SpiCfg} {u : SpiState} {fr : Bool} (h : u.lastFrame = fr ∨ u.reg = 0 ∧ u.count = 0) :
    spiProc1 c fr u = u := by
  rcases h with h | ⟨hreg, hcount⟩
  · exact if_neg fun ⟨_, hactive, hlast⟩ => hlast (h.trans hactive)
  · rw [spiProc1_eq]
    split
    · cases u
      simp_all [SpiState.clearShift]
    · rfl

section

variable {p : Params} {c : SpiCfg} {u : SpiState} {fr : Bool} (ht : ¬ SpiCfg.timeoutActive c)
  (hkd : c.clockChannel ≠ c.dataChannel) (hkf : c.clockChannel ≠ c.frameChannel) (hdf : c.dataChannel ≠ c.frameChannel)
  (hg : c.frameEnable = false ∨ fr = c.frameActive) (hlast : u.lastFrame = fr ∨ u.reg = 0 ∧ u.count = 0) (da : Bool)
include ht hkd hkf hdf hlast

/-- The first sample of a bit: the clock leaves the sampling level. -/
theorem spiTickOn_idle_level :
    spiTickOn p c u (spiSample c (!c.clockEdge) da fr) = ({ u with lastClock := !c.clockEdge, lastFrame := fr }, none) := by
  obtain ⟨hck, hda, hfr⟩ := testBit_spiSample hkd hkf hdf (!c.clockEdge) da fr
  rw [spiTickOn, hck, hda, hfr, spiProcedure_of_inactive ht, spiProc1_of_settled hlast, spiProc3_of_no_edge (by simp)]

include hg

/-- The second sample of a bit shifts it in, or completes the word with it. -/
theorem spiTickOn_sampling_level (hclock : u.lastClock = !c.clockEdge) :
    spiTickOn p c u (spiSample c c.clockEdge da fr) =
      if u.count + 1 = c.nbBits then
        (⟨0, 0, c.frameTimeout, c.clockEdge, fr⟩, some (shiftIn p u.reg da))
      else (⟨shiftIn p u.reg da, u.count + 1, u.countdown, c.clockEdge, fr⟩, none) := by
  obtain ⟨hck, hda, hfr⟩ := testBit_spiSample hkd hkf hdf c.clockEdge da fr
  have hedge : c.clockEdge ≠ u.lastClock ∧ c.clockEdge = c.clockEdge := ⟨by simp [hclock], rfl⟩
  rw [spiTickOn, hck, hda, hfr, spiProcedure_of_inactive ht, spiProc1_of_settled hlast]
  split
  · rename_i hf
    rw [spiProc3_emit hg hedge hf]
  · rename_i hf
    rw [spiProc3_shift hg hedge hf]

/-- The samples of the last `n` bits of a word, the bits above them being collected. -/
theorem spiWords_bits {v : Word} {n : Nat} (hn : 0 < n) (hcount : u.count + n = c.nbBits) (hreg : u.reg = v >>> n)
    (hv : v < 2 ^ c.nbBits) (hw : c.nbBits ≤ p.wordW) :
    spiWords p c u ((bitsMsbFirst v n).flatMap fun d => sbit c d fr) = [v] := by
  induction n generalizing u with
  | zero => exact absurd hn (Nat.lt_irrefl 0)
  | succ n ih =>
    have hshift : shiftIn p u.reg (v.testBit n) = v >>> n := by
      have hlt : u.reg < 2 ^ u.count := by
        rw [hreg, Nat.shiftRight_eq_div_pow]
        exact Nat.div_lt_of_lt_mul (by rwa [← Nat.pow_add, Nat.add_comm, hcount])
      rw [shiftIn_eq_add _ hlt (by omega), hreg, Nat.toNat_testBit, Nat.shiftRight_eq_div_pow, Nat.shiftRight_eq_div_pow,
        Nat.pow_succ, ← Nat.div_div_eq_div_mul]
      exact Nat.div_add_mod _ 2
    rw [bitsMsbFirst, List.flatMap_cons, sbit, List.cons_append, List.cons_append, List.nil_append, spiWords,
      spiTickOn_idle_level ht hkd hkf hdf hlast, spiWords,
      spiTickOn_sampling_level ht hkd hkf hdf hg (.inl rfl) _ rfl, hshift]
    rcases Nat.eq_zero_or_pos n with rfl | hpos
    · rw [if_pos hcount]
      rfl
    · rw [if_neg (by simp only; omega)]
      exact ih (u := ⟨v >>> n, u.count + 1, u.countdown, c.clockEdge, fr⟩) (.inl rfl) hpos (by simp only; omega) rfl

end

/-- Settles O45: the unit starts with an empty register and collects the bits from the most significant one down. -/
theorem spiDecodesWhatSwordEncodes : Obligations.SpiDecodesWhatSwordEncodes := by
  intro s v fr rest h hsrc hg ht hcount hkd hkf hdf hv hin
  obtain ⟨-, -, -, hn, hw⟩ := SpiCfg.legal_iff.mp h.spi_legal
  have hreg : s.spi.reg = 0 := by
    have hlt := h.spi_inv.reg_lt
    rwa [hcount, pow_zero, Nat.lt_one_iff] at hlt
  rw [h.outputs_spi hsrc hin, sword]
  refine spiWords_bits ht hkd hkf hdf hg (.inr ⟨hreg, hcount⟩) hn (by rw [hcount, Nat.zero_add]) ?_ hv hw
  rw [hreg, Nat.shiftRight_eq_div_pow, Nat.div_eq_of_lt hv]

end Sys2Proof.Machine
end

section
/-! # EDGE in front of SPI (40_bus_and_tick.md R118)

A tick on the sample of the tick before changes nothing that shows later; so the SPI unit may be spared it. -/

namespace Sys2Proof.Machine

/-- The two states are the same but for the frame level of the tick before, and that only where no bit is pending. -/
def SpiSimilar (u v : SpiState) : Prop :=
  u = v ∨ ((u.reg = 0 ∧ u.count = 0) ∧ ∃ b, v = { u with lastFrame := b })

/-- A tick on the sample `x` finds no clock edge, and no frame start where a bit is pending. -/
structure SpiSettled (c : SpiCfg) (u : SpiState) (x : Word) : Prop where
  clock : u.lastClock = x.testBit c.clockChannel
  frame : u.lastFrame = x.testBit c.frameChannel ∨ u.reg = 0 ∧ u.count = 0

theorem spiTickOn_settles (p : Params) (c : SpiCfg) (u : SpiState) (x : Word) : SpiSettled c (spiTickOn p c u x).1 x :=
  ⟨rfl, .inl rfl⟩

/-- Phase 3 does not look at the frame level of the tick before. -/
theorem spiProc3_withLastFrame (p : Params) (c : SpiCfg) (ck fr da b : Bool) (u : SpiState) :
    spiProc3 p c ck fr da { u with lastFrame := b } =
      let r := spiProc3 p c ck fr da u
      ({ r.1 with lastFrame := b }, r.2) := by
  unfold spiProc3
  split
  · split
    · dsimp only
      split <;> rfl
    · rfl
  · rfl

section

variable {p : Params} {c : SpiCfg} {u v : SpiState} {x : Word} (ht : ¬ SpiCfg.timeoutActive c)
include ht

/-- Similar states do the same on a tick: where they differ a frame start would change nothing. -/
theorem spiTickOn_of_similar (h : SpiSimilar u v) : spiTickOn p c u x = spiTickOn p c v x := by
  rcases h with rfl | ⟨hempty, b, rfl⟩
  · rfl
  · rw [spiTickOn, spiTickOn, spiProcedure_of_inactive ht, spiProcedure_of_inactive ht,
      spiProc1_of_settled (.inr hempty), spiProc1_of_settled (u := { u with lastFrame := b }) (.inr hempty),
      spiProc3_withLastFrame (b := b)]

theorem spiTickOn_of_settled (h : SpiSettled c v x) :
    spiTickOn p c v x = ({ v with lastFrame := x.testBit c.frameChannel }, none) := by
  rw [spiTickOn, spiProcedure_of_inactive ht, spiProc1_of_settled h.frame, spiProc3_of_no_edge fun he => he.1 h.clock.symm,
    ← h.clock]

omit ht in
theorem SpiSimilar.withLastFrame (h : SpiSimilar u v) (hx : SpiSettled c v x) :
    SpiSimilar u { v with lastFrame := x.testBit c.frameChannel } := by
  rcases h with rfl | ⟨hempty, b, rfl⟩
  · rcases hx.frame with hlast | hempty
    · left
      rw [← hlast]
    · exact .inr ⟨hempty, _, rfl⟩
  · exact .inr ⟨hempty, _, rfl⟩

/-- Leaving out the samples that equal the one before leaves the words as they are. -/
theorem spiWords_changes {xs : List Word} {l : Word} (h : SpiSimilar u v) (hl : xs.head? ≠ some l ∨ SpiSettled c v l) :
    spiWords p c u (changes l xs) = spiWords p c v xs := by
  induction xs generalizing l u v with
  | nil => rfl
  | cons x xs ih =>
    by_cases hx : x = l
    · subst hx
      have hsettled : SpiSettled c v x := hl.resolve_left fun hne => hne rfl
      rw [changes, if_pos rfl, spiWords, spiTickOn_of_settled ht hsettled]
      exact ih (h.withLastFrame hsettled) (.inr ⟨hsettled.clock, .inl rfl⟩)
    · rw [changes, if_neg hx, spiWords, spiWords, spiTickOn_of_similar ht h,
        ih (.inl rfl) (.inr (spiTickOn_settles p c v x))]

end

/-- A step of the chain on a sample for EDGE: the SPI unit ticks on it if EDGE passes it on, and else does nothing. -/
theorem State.Good.chain_step {s : State} {x : Word} {cs : List Cycle} (h : s.Good)
    (hwire : s.wire = ⟨.host, .host, .unit .edge⟩) (hx : x < 2 ^ s.par.w)
    (hin : s.input = Cycle.ofEdge (Pins.ofTick x) :: cs) :
    ∃ t, StepsTo s t ∧ t.edge = ⟨x⟩ ∧ t.spiCfg = s.spiCfg ∧
      (t.spi, t.spiOut) = if x = s.edge.lastSample then (s.spi, none) else spiTickOn s.par s.spiCfg s.spi x := by
  obtain ⟨t, ht, hedge, hout⟩ := h.edge_step (by rw [hwire]) hx hin
  obtain ⟨t', hexec, -, hcfg, hspi, hspiOut⟩ := step_unit ht.step .spi
  have hrst : (nextCycle s).rst .spi = none := nextCycle_of_cons hin ▸ rst_ofEdge_ofTick x .spi
  have hsrc : t.wire.source .spi = .unit .edge := by rw [ht.wire, hwire]; rfl
  have hpins : tickInput (nextCycle s) .spi t = t.edgeOut := tickInput_of_unit hsrc
  refine ⟨t, ht, hedge, ?_⟩
  rw [← hcfg, ← hspi, ← hspiOut]
  by_cases hd : x = s.edge.lastSample
  · rw [if_neg (not_not.mpr hd)] at hout
    rw [fetch_of_no_tick hrst (hpins.trans hout)] at hexec
    cases hexec
    exact ⟨rfl, (if_pos hd).symm⟩
  · rw [if_pos hd] at hout
    rw [fetch_of_tick hrst (hpins.trans hout)] at hexec
    obtain rfl := Host.Outcome.next.inj ((spiTickIsItsProcedure s x h.spi_legal h.spi_inv).symm.trans hexec)
    exact ⟨rfl, (if_neg hd).symm⟩

/-- Behind EDGE the SPI unit outputs what it does on its own on the changes alone (R135). -/
theorem State.Good.outputs_chain {s : State} {xs : List Word} {rest : List Cycle} (h : s.Good)
    (hwire : s.wire = ⟨.host, .host, .unit .edge⟩) (hxs : ∀ x ∈ xs, x < 2 ^ s.par.w)
    (hin : s.input = edgeCycles xs ++ rest) :
    outputs .spi xs.length s = spiWords s.par s.spiCfg s.spi (changes s.edge.lastSample xs) := by
  induction xs generalizing s with
  | nil => rfl
  | cons x xs ih =>
    obtain ⟨hx, hxs⟩ := List.forall_mem_cons.mp hxs
    obtain ⟨t, ht, hedge, hcfg, htick⟩ := h.chain_step hwire hx hin
    have hrest := ih ht.good (ht.wire.trans hwire) (ht.par ▸ hxs) (ht.input_of_cons hin)
    rw [ht.par, hcfg, hedge] at hrest
    rw [List.length_cons, outputs_succ_of_next _ _ ht.step, hrest, State.out]
    by_cases hd : x = s.edge.lastSample
    · obtain ⟨hspi, hout⟩ := Prod.mk.inj (htick.trans (if_pos hd))
      rw [hspi, hout, changes, if_pos hd]
      rfl
    · rw [if_neg hd] at htick
      rw [changes, if_neg hd, spiWords, ← htick]

/-- Settles O57: from reset no bit is pending, and where the first sample is 0, which EDGE holds back, its clock bit is the level
that the unit starts from. -/
theorem edgeFilterIsTransparentToSpi : Obligations.EdgeFilterIsTransparentToSpi := by
  intro s t xs rest rest' h h' hpar hcfg hwire hwire' hedge hspi hspi' ht hxs hfirst hin hin'
  have hsrc : t.wire.spi = .host := by rw [hwire']; rfl
  rw [h.outputs_chain hwire hxs hin, h'.outputs_spi hsrc hin', ← hpar, hspi, hspi', ← hcfg, hedge]
  refine spiWords_changes ht (.inl rfl) (hfirst.imp_right fun hpol => ⟨?_, .inr ⟨rfl, rfl⟩⟩)
  rw [SpiState.reset, hpol, EdgeState.reset, Nat.zero_testBit]

end Sys2Proof.Machine
end
